-- ==== Sys2Proof/Word.lean ====
section
/-! DEFINITION. The fixed widths of the PCE-CORE cipher engine (spec/00_scope.md R5, R6). -/

namespace Sys2Proof

/-- A block, a subkey, a seed, a register: 64 bits (`W` of R5; `SEED_W`, `PSN_W` of R6). `^^^`, `+`, `-`, `*` on words are
R12's `xor`, `+64`, `-64`, `*64`: they wrap modulo 2^64, and nothing is signed (R8). -/
abbrev Word := BitVec 64

/-- A byte of the host's framing, 0 to 255 (45_host_framing.md; R10). -/
abbrev Byte := BitVec 8

/-- A register address, 0x00 to 0xFF (`ADDR_W` = 8, R6): a register index, not a byte address (20_memory.md R51). -/
abbrev Addr := BitVec 8

end Sys2Proof
end

