-- ==== Sys2Proof/Syntax.lean ====
section
/-! DEFINITION. What the host can say to the engine: the seven commands (spec/30_encoding.md R87), the registers by name
(R94), the three kinds of event (00_scope.md R13), and the lines of a host script (R93, R96). -/

namespace Sys2Proof

/-- The four elementary transforms, in the order of the source's table (41_elementary_transforms.md R130): XORK is
idx 0, ROL5 idx 1, ADDK idx 2, ROR7 idx 3. Which number selects which is `Transform.ofIdx`. -/
inductive Transform where
  | xork
  | rol5
  | addk
  | ror7
deriving DecidableEq, Repr

/-- The seven commands (30_encoding.md R87), one constructor for each row of spec/opcode_table.json. -/
inductive Instr where
  /-- `NOP` (R180). -/
  | nop
  /-- `KGEN n`: the count n, 0 to 255 (R85, R117). -/
  | kgen (n : Nat)
  /-- `ENC` (R159). -/
  | enc
  /-- `DEC` (R160). -/
  | dec
  /-- `XFWD t, j`: the transform t and the key slot j, 0 to 3 (R86, R141). -/
  | xfwd (t : Transform) (j : Nat)
  /-- `XINV t, j`: the transform t and the key slot j, 0 to 3 (R86, R142). -/
  | xinv (t : Transform) (j : Nat)
  /-- `RESET` (R181). -/
  | reset
deriving DecidableEq, Repr

/-- The registers the address map names (20_memory.md R52; their script names are R94). -/
inductive Reg where
  | cmd
  | status
  | finfo
  | p
  | q
  | s
  | psn
  | b
  /-- `KT[j]`. -/
  | kt (j : Nat)
deriving DecidableEq, Repr

/-- What the host can do to the engine, one at a time (00_scope.md R13). -/
inductive HostEvent where
  /-- `HostWrite(a, d)`. -/
  | write (a : Addr) (d : Word)
  /-- `HostRead(a)`. -/
  | read (a : Addr)
  /-- `HardReset`. -/
  | hardReset
deriving DecidableEq, Repr

/-- One line of a host script (30_encoding.md R93), or one pseudo-command (R96). -/
inductive ScriptLine where
  /-- `WR reg, value`. -/
  | wr (r : Reg) (v : Word)
  /-- `RD reg`. -/
  | rd (r : Reg)
  /-- `CMD mnemonic operands`. -/
  | cmd (i : Instr)
  /-- `HRESET`. -/
  | hreset
  /-- `WRA a, value`. -/
  | wra (a : Addr) (v : Word)
  /-- `RDA a`. -/
  | rda (a : Addr)
  /-- `SEED p, q, s`. -/
  | seed (p q s : Word)
  /-- `GENERATE p, q, s, n`. -/
  | generate (p q s : Word) (n : Nat)
  /-- `ENCBLK v`. -/
  | encblk (v : Word)
  /-- `DECBLK v`. -/
  | decblk (v : Word)
  /-- `RDKT`. -/
  | rdkt
deriving DecidableEq, Repr

end Sys2Proof
end

