-- ==== Sys2Proof/Decode.lean ====
section
/-! DEFINITION. The command word: its fields, the total decoder (spec/30_encoding.md R88), the opcode map (R87) and the
encoder (the words of R87). -/

namespace Sys2Proof

/-- `v[hi:lo]` of a number (00_scope.md R9): `(v div 2^lo) mod 2^(hi-lo+1)`. -/
def natField (v hi lo : Nat) : Nat := v / 2 ^ lo % 2 ^ (hi + 1 - lo)

/-- `d[hi:lo]` of a word (00_scope.md R9). -/
def bitField (d : Word) (hi lo : Nat) : Nat := natField d.toNat hi lo

/-- The transform that an index selects, the index taken modulo 4 (41_elementary_transforms.md R130: id = idx + 1, so idx 0
is XOR with key, 1 rotate left 5, 2 add key, 3 rotate right 7). -/
def Transform.ofIdx (idx : Nat) : Transform :=
  match idx % 4 with
  | 0 => .xork
  | 1 => .rol5
  | 2 => .addk
  | _ => .ror7

/-- The index of a transform (R130), the operand t of XFWD and XINV (R86). -/
def Transform.idx : Transform → Nat
  | .xork => 0
  | .rol5 => 1
  | .addk => 2
  | .ror7 => 3

/-- Why a command word is no command: the step of R88 that turns it away. Every one of them is ILLEGAL_CMD (60_exceptions.md
R222). -/
inductive DecodeReject where
  /-- Step 1: `d[63:16] != 0`. -/
  | reservedHighBits
  /-- Step 3: `op` is none of the seven opcodes. -/
  | unassignedOpcode (op : Nat)
  /-- Step 4: NOP, ENC, DEC or RESET with `d[15:8] != 0`. -/
  | operandOfFormatZ
  /-- Step 5: XFWD or XINV with `d[15:12] != 0`. -/
  | reservedOfFormatX
deriving DecidableEq, Repr

/-- A format Z word: the command, where the operand byte is 0 (R82; step 4 of R88). -/
def decodeZ (d : Word) (i : Instr) : Except DecodeReject Instr :=
  if bitField d 15 8 = 0 then .ok i else .error .operandOfFormatZ

/-- A format X word: the command with t = d[9:8] and j = d[11:10], where d[15:12] is 0 (R84, R86; step 5 of R88). -/
def decodeX (d : Word) (i : Transform → Nat → Instr) : Except DecodeReject Instr :=
  if bitField d 15 12 = 0 then .ok (i (Transform.ofIdx (bitField d 9 8)) (bitField d 11 10))
  else .error .reservedOfFormatX

/-- The decoder of R88: total, "every 64-bit d gets exactly one of the outcomes". -/
def decode (d : Word) : Except DecodeReject Instr :=
  if bitField d 63 16 = 0 then
    match bitField d 7 0 with
    | 0x00 => decodeZ d .nop
    | 0x01 => .ok (.kgen (bitField d 15 8))
    | 0x02 => decodeZ d .enc
    | 0x03 => decodeZ d .dec
    | 0x04 => decodeX d .xfwd
    | 0x05 => decodeX d .xinv
    | 0x07 => decodeZ d .reset
    | op => .error (.unassignedOpcode op)
  else .error .reservedHighBits

/-- The command word of each command, as the number R87 gives it. -/
def encode : Instr → Word
  | .nop => 0x00
  | .kgen n => BitVec.ofNat 64 (0x01 + 0x100 * n)
  | .enc => 0x02
  | .dec => 0x03
  | .xfwd t j => BitVec.ofNat 64 (0x04 + 0x100 * t.idx + 0x400 * j)
  | .xinv t j => BitVec.ofNat 64 (0x05 + 0x100 * t.idx + 0x400 * j)
  | .reset => 0x07

/-- One row of the opcode map: a word d selects it when `d and mask = pattern` (R87). -/
structure OpcodeRow where
  /-- The mnemonic, as spec/opcode_table.json spells it. -/
  mnemonic : String
  /-- The bits that are compared. -/
  mask : Word
  /-- What they must be (the table's `match`). -/
  pattern : Word
deriving DecidableEq, Repr

/-- The opcode map (R87; spec/opcode_table.json). -/
def opcodeRows : List OpcodeRow :=
  [ { mnemonic := "NOP", mask := 0xFFFFFFFFFFFFFFFF, pattern := 0x0000000000000000 },
    { mnemonic := "KGEN", mask := 0xFFFFFFFFFFFF00FF, pattern := 0x0000000000000001 },
    { mnemonic := "ENC", mask := 0xFFFFFFFFFFFFFFFF, pattern := 0x0000000000000002 },
    { mnemonic := "DEC", mask := 0xFFFFFFFFFFFFFFFF, pattern := 0x0000000000000003 },
    { mnemonic := "XFWD", mask := 0xFFFFFFFFFFFFF0FF, pattern := 0x0000000000000004 },
    { mnemonic := "XINV", mask := 0xFFFFFFFFFFFFF0FF, pattern := 0x0000000000000005 },
    { mnemonic := "RESET", mask := 0xFFFFFFFFFFFFFFFF, pattern := 0x0000000000000007 } ]

/-- The row selects the word (R87). -/
def OpcodeRow.selects (r : OpcodeRow) (d : Word) : Bool := d &&& r.mask == r.pattern

/-- The row's mnemonic of a command, as spec/opcode_table.json spells it (R87, R95). -/
def Instr.mnemonic : Instr → String
  | .nop => "NOP"
  | .kgen _ => "KGEN"
  | .enc => "ENC"
  | .dec => "DEC"
  | .xfwd _ _ => "XFWD"
  | .xinv _ _ => "XINV"
  | .reset => "RESET"

/-- What the decoder reads from the low `nbits` bits of `w`, the bits above them 0. A command is one 64-bit number with no
byte order of its own (R80; 20_memory.md R59), so the bits are the word. -/
def decodeTableWord (nbits w : Nat) : Option Instr :=
  match decode (BitVec.ofNat 64 (w % 2 ^ nbits)) with
  | .ok i => some i
  | .error _ => none

end Sys2Proof
end

