-- ==== Sys2Proof/Machine/Arith.lean ====
section
/-! DEFINITION. The constants the source fixes (spec/00_scope.md R5) and the operators of R12 that `BitVec` does not already
name. `xor`, `+64`, `-64`, `*64` are `^^^`, `+`, `-`, `*` on `Word`. -/

namespace Sys2Proof.Machine

/-- `NT`: how many elementary transforms, and slots of the pipeline, there are. -/
abbrev slotCount : Nat := 4
/-- `ROL_AMT`: the rotate amount of transform id 2. -/
abbrev rolAmount : Nat := 5
/-- `ROR_AMT`: the rotate amount of transform id 4. -/
abbrev rorAmount : Nat := 7
/-- `KS_SHIFT`: the left shift of the key schedule's state update. -/
abbrev keyShift : Nat := 3
/-- `N_DEFAULT`: the source's default number of subkeys. No command reads it: KGEN carries its count (30_encoding.md R85). -/
abbrev defaultKeyCount : Nat := 8
/-- `SEL_MOD`: the modulus of the position selector. -/
abbrev selectorModulus : Nat := 16
/-- `BLOCK_BYTES`: the bytes of a block. -/
abbrev blockBytes : Nat := 8

/-- `a shl64 r` (R12): the bits shifted out at the top are lost, zeros enter at bit 0. -/
def shl64 (a : Word) (r : Nat) : Word := a <<< r

/-- `rotl64(a, r)` (R12): every bit moves r places toward the more significant end, the top r bits re-enter at the bottom. -/
def rotl64 (a : Word) (r : Nat) : Word := (a <<< r) ||| (a >>> (64 - r))

/-- `rotr64(a, r)` (R12): every bit moves r places toward the less significant end, the low r bits re-enter at the top. -/
def rotr64 (a : Word) (r : Nat) : Word := (a >>> r) ||| (a <<< (64 - r))

end Sys2Proof.Machine
end

