-- ==== Sys2Proof/Config.lean ====
section
/-! DEFINITION. What one implementation of the engine fixes (spec/00_scope.md R6): KT_CAP, and nothing else that a rule
reads. `BusBinding` and `Latency` are open parameters "no rule reads" (log entry 10). -/

namespace Sys2Proof

/-- The parameters of one engine: the capacity of its key table (R6). -/
structure Config where
  /-- `KT_CAP`: how many entries the key table has. -/
  ktCap : Nat
deriving DecidableEq, Repr

/-- The legal configurations: 8 <= KT_CAP <= 240 (R6, R7). -/
abbrev Config.Legal (cfg : Config) : Prop := 8 ≤ cfg.ktCap ∧ cfg.ktCap ≤ 240

/-- The reference configuration: KT_CAP = 8 (R6). -/
def Config.reference : Config := { ktCap := 8 }

end Sys2Proof
end

