-- ==== Sys2Proof/Machine/State.lean ====
section
/-! DEFINITION. The state of one engine (spec/10_state.md R20); beside it, the host's events that wait for it and the words it
has returned; the reasons a step could stop, and the state after reset (R34). -/

namespace Sys2Proof.Machine

/-- What the register FCODE holds (60_exceptions.md R221); the numbers are `FCode.code`. -/
inductive FCode where
  /-- 0: no fault is recorded. -/
  | noFault
  /-- 1, ILLEGAL_CMD: a command word that matches no row of the opcode map (R222). -/
  | illegalCmd
  /-- 2, LEN_RANGE: KGEN n with n > KT_CAP (R224). -/
  | lenRange
  /-- 3, EMPTY_KT: ENC, DEC, XFWD or XINV with KLEN = 0 (R223). -/
  | emptyKt
  /-- 4, BAD_ADDR: an unmapped address (R225). -/
  | badAddr
  /-- 5, BAD_ACCESS: a read of CMD, or a write of STATUS, FINFO or KT[j] (R226). -/
  | badAccess
deriving DecidableEq, Repr

/-- The reasons the MACHINE could stop: none. A fault of the engine is a recorded state it goes on answering in
(60_exceptions.md R220, R233), never a stop, and "no transaction fails to complete" (93_implementation_defined.md part 2).
Raised by nobody; safe (log entry 11). -/
inductive Fault where
deriving DecidableEq, Repr

/-- The reasons an instruction could have no meaning. -/
inductive Refusal where
  /-- Raised by an arm of `exec` whose instruction has no meaning yet: by none, since all seven commands have theirs. Safe:
  the machine stops where the hardware goes on. -/
  | notModelled (mnemonic : String)
deriving DecidableEq, Repr

/-- The architectural state of one engine: the nine fields of R20 and no others. -/
structure Engine where
  /-- Seed P (R21). -/
  p : Word
  /-- Seed Q (R22). -/
  q : Word
  /-- Seed S (R23). -/
  s : Word
  /-- The position (R24). -/
  psn : Word
  /-- The block (R25). -/
  b : Word
  /-- The key table's entries, KT[0] first (R27). -/
  kt : List Word
  /-- How many entries of the key table are valid (R27). -/
  klen : Nat
  /-- The recorded fault (60_exceptions.md R221). -/
  fcode : FCode
  /-- What the faulting transaction carried (R30; 60_exceptions.md R228). -/
  finfo : Word
deriving DecidableEq, Repr

/-- An engine with KT_CAP = `ktCap` right after reset: every field of R20 at the value R34 gives it. -/
def Engine.reset (ktCap : Nat) : Engine :=
  { p := 0, q := 0, s := 0, psn := 0, b := 0, kt := List.replicate ktCap 0, klen := 0, fcode := .noFault, finfo := 0 }

/-- The whole of what a step reads and answers: the engine (R20), its parameter, and the host's end of its port. R19's engine
takes (state, event) to (state, read data); the interface's step takes and answers one value, so the event and the read data
stand beside the engine, in fields that are none of its state (log entries 1, 2, 4). -/
structure State extends Engine where
  /-- The parameter KT_CAP (00_scope.md R6), which R20 says is not state. No step changes it (log entry 4). -/
  cfg : Config
  /-- The host's events not yet served, oldest first (log entry 1). -/
  inbox : List HostEvent
  /-- The words HostReads have returned, oldest first (log entry 2). -/
  outbox : List Word
deriving DecidableEq, Repr

/-- An engine of a given configuration right after reset, with no event waiting and nothing read (R34). -/
def State.resetOf (cfg : Config) : State :=
  { toEngine := Engine.reset cfg.ktCap, cfg := cfg, inbox := [], outbox := [] }

/-- The machine right after reset (R34, 70_reset_and_hazards.md R261), in the reference configuration KT_CAP = 8 (R6; log
entry 4). -/
def State.reset : State := State.resetOf Config.reference

/-- What a step answers. -/
abbrev Result := Host.Outcome State Fault Refusal

end Sys2Proof.Machine
end

