-- ==== Sys2Proof/Machine/Ops.lean ====
section
/-! DEFINITION. The named operations every command and transaction is made of: one update for each register, the key table,
raising a fault (this engine's exception), leaving the faulted state (reset), and the rule that a faulted engine ignores. -/

namespace Sys2Proof.Machine

/-- `P <- d`. -/
def setP (d : Word) (s : State) : State := { s with p := d }
/-- `Q <- d`. -/
def setQ (d : Word) (s : State) : State := { s with q := d }
/-- `S <- d`. -/
def setS (d : Word) (s : State) : State := { s with s := d }
/-- `PSN <- d`. -/
def setPsn (d : Word) (s : State) : State := { s with psn := d }
/-- `B <- d`. -/
def setB (d : Word) (s : State) : State := { s with b := d }

/-- `KT[j]` (00_scope.md R11). An index past the array, which no reachable state forms, reads as 0 (log entry 6). -/
def ktEntry (kt : List Word) (j : Nat) : Word := kt.getD j 0

/-- The whole key table is replaced: the keys, then zeros up to KT_CAP, and KLEN is how many keys there are (40_key_schedule.md
R117). -/
def setTable (keys : List Word) (s : State) : State :=
  { s with kt := keys ++ List.replicate (s.cfg.ktCap - keys.length) 0, klen := keys.length }

/-- A HostRead returns `v` to the host (00_scope.md R13; log entry 2). -/
def reply (v : Word) (s : State) : State := { s with outbox := s.outbox ++ [v] }

/-- The events left to serve once the oldest is taken (log entry 1). -/
def setInbox (es : List HostEvent) (s : State) : State := { s with inbox := es }

/-- `raise Fault(code, info)` (00_scope.md R14, 60_exceptions.md R232): the one way an exception is taken. If no fault is
recorded, FCODE and FINFO are written and nothing else; if one is, it is kept. -/
def raiseFault (c : FCode) (info : Word) (s : State) : State :=
  if s.fcode = .noFault then { s with fcode := c, finfo := info } else s

/-- The reset state (10_state.md R34, 43_control_commands.md R181), in every state, faulted or not: the only way out of the
faulted state (60_exceptions.md R235). The engine's own registers only: the host's events and what it has read are not the
engine's. -/
def resetEngine (s : State) : State :=
  { s with toEngine := Engine.reset s.cfg.ktCap }

/-- A faulted engine ignores the transaction (60_exceptions.md R233); an engine that is not faulted performs it. -/
def unlessFaulted (s : State) (body : Result) : Result :=
  if s.fcode = .noFault then body else .next s

/-- What follows a transaction that completed (20_memory.md R65). -/
def andThen (o : Result) (k : State → Result) : Result :=
  match o with
  | .next s => k s
  | .fault r => .fault r
  | .refused r => .refused r

end Sys2Proof.Machine
end

