-- ==== Sys2Proof/Machine/Operands.lean ====
section
/-! DEFINITION. How a command reaches its operands: the key of a slot, and the command word a fault records. -/

namespace Sys2Proof.Machine

/-- The key of slot i: `kt[i mod len]` (42_block_cipher.md R152: the key index follows the loop counter). Asked only with
len >= 1. -/
def slotKey (kt : List Word) (len i : Nat) : Word := ktEntry kt (i % len)

/-- A command raises a fault: FINFO records the command word d (60_exceptions.md R228). Each command has exactly one word, so d
is the command's encoding (log entry 5). -/
def raiseByCommand (c : FCode) (i : Instr) (s : State) : Result := .next (raiseFault c (encode i) s)

end Sys2Proof.Machine
end

