-- ==== Sys2Proof/Machine/Transforms.lean ====
section
/-! DEFINITION. The four elementary transforms and their inverses (spec/41_elementary_transforms.md R130 to R138) and the
commands XFWD and XINV (R141, R142). -/

namespace Sys2Proof.Machine

/-- `Fwd(idx, x, k)` (R130, R131, R133, R135, R137). The rotations ignore the key, deliberately (R140). -/
def fwd (t : Transform) (x k : Word) : Word :=
  match t with
  | .xork => x ^^^ k
  | .rol5 => rotl64 x rolAmount
  | .addk => x + k
  | .ror7 => rotr64 x rorAmount

/-- `Inv(idx, x, k)` (R130, R132, R134, R136, R138). -/
def inv (t : Transform) (x k : Word) : Word :=
  match t with
  | .xork => x ^^^ k
  | .rol5 => rotr64 x rolAmount
  | .addk => x - k
  | .ror7 => rotl64 x rorAmount

/-- `XFWD t, j` (R141): EMPTY_KT where KLEN = 0, whichever t, else `B <- Fwd(t, B, KT[j mod KLEN])`. -/
def execXfwd (t : Transform) (j : Nat) (s : State) : Result :=
  unlessFaulted s <|
    if s.klen = 0 then raiseByCommand .emptyKt (.xfwd t j) s
    else .next (setB (fwd t s.b (slotKey s.kt s.klen j)) s)

/-- `XINV t, j` (R142): EMPTY_KT where KLEN = 0, whichever t, else `B <- Inv(t, B, KT[j mod KLEN])`. -/
def execXinv (t : Transform) (j : Nat) (s : State) : Result :=
  unlessFaulted s <|
    if s.klen = 0 then raiseByCommand .emptyKt (.xinv t j) s
    else .next (setB (inv t s.b (slotKey s.kt s.klen j)) s)

end Sys2Proof.Machine
end

