-- ==== Sys2Proof/Machine/BlockCipher.lean ====
section
/-! DEFINITION. The position-dependent pipeline: the functions EncBlock and DecBlock (spec/42_block_cipher.md R150, R151) and the
commands ENC and DEC (R159, R160). -/

namespace Sys2Proof.Machine

/-- Slot i of the forward pipeline (R150): idx = (psn + i) mod 4 selects the transform, i mod len selects the key (R152). -/
def encSlot (kt : List Word) (len psn i : Nat) (v : Word) : Word :=
  fwd (Transform.ofIdx (psn + i)) v (slotKey kt len i)

/-- Slot i of the inverse pipeline (R151). -/
def decSlot (kt : List Word) (len psn i : Nat) (w : Word) : Word :=
  inv (Transform.ofIdx (psn + i)) w (slotKey kt len i)

/-- `EncBlock(b, kt, len, psn)` (R150): slots 0, 1, 2, 3 in this order. It has no value at len = 0 (R158). -/
def encBlock (b : Word) (kt : List Word) (len psn : Nat) : Option Word :=
  if len = 0 then none
  else some ((List.range slotCount).foldl (fun v i => encSlot kt len psn i v) b)

/-- `DecBlock(c, kt, len, psn)` (R151): slots 3, 2, 1, 0 in this order. It has no value at len = 0 (R158). -/
def decBlock (c : Word) (kt : List Word) (len psn : Nat) : Option Word :=
  if len = 0 then none
  else some ((List.range slotCount).reverse.foldl (fun w i => decSlot kt len psn i w) c)

/-- `ENC` (R159): `B <- EncBlock(B, KT, KLEN, PSN)`; EMPTY_KT where that has no value (KLEN = 0). -/
def execEnc (s : State) : Result :=
  unlessFaulted s <|
    match encBlock s.b s.kt s.klen s.psn.toNat with
    | none => raiseByCommand .emptyKt .enc s
    | some v => .next (setB v s)

/-- `DEC` (R160): `B <- DecBlock(B, KT, KLEN, PSN)`; EMPTY_KT where that has no value (KLEN = 0). -/
def execDec (s : State) : Result :=
  unlessFaulted s <|
    match decBlock s.b s.kt s.klen s.psn.toNat with
    | none => raiseByCommand .emptyKt .dec s
    | some v => .next (setB v s)

end Sys2Proof.Machine
end

