-- ==== Sys2Proof/Machine/Control.lean ====
section
/-! DEFINITION. The control commands NOP and RESET (spec/43_control_commands.md R180, R181). -/

namespace Sys2Proof.Machine

/-- `NOP` (R180): no state changes, faulted or not. -/
def execNop (s : State) : Result := .next s

/-- `RESET` (R181): in every state, faulted or not, the engine's reset state. -/
def execReset (s : State) : Result := .next (resetEngine s)

end Sys2Proof.Machine
end

