-- ==== Sys2Proof/Machine/KeySchedule.lean ====
section
/-! DEFINITION. The key schedule: the function Generate (spec/40_key_schedule.md R110) and the command KGEN (R117). -/

namespace Sys2Proof.Machine

/-- `Generate(p, q, s, n)` as the source has it, over unbounded unsigned integers (R110). `s` is the loop-local state: it is
threaded through the iterations and the last one is discarded. -/
def generateNat (p q s : Nat) : Nat → List Nat
  | 0 => []
  | n + 1 => (p ^^^ s) % 2 ^ 64 * q % 2 ^ 64 :: generateNat p q ((s * 2 ^ keyShift ^^^ q) % 2 ^ 64) n

/-- `Generate` with 64-bit operands, the operators of 00_scope.md R12 (R113). -/
def generate (p q s : Word) : Nat → List Word
  | 0 => []
  | n + 1 => (p ^^^ s) * q :: generate p q (shl64 s keyShift ^^^ q) n

/-- `KGEN n` (R117): LEN_RANGE where n > KT_CAP, else a fresh table of n subkeys, zeros after them, and KLEN <- n. `P`, `Q` and
`S` are read and not written (10_state.md R23). -/
def execKgen (n : Nat) (s : State) : Result :=
  unlessFaulted s <|
    if n > s.cfg.ktCap then raiseByCommand .lenRange (.kgen n) s
    else .next (setTable (generate s.p s.q s.s n) s)

end Sys2Proof.Machine
end

