-- ==== Sys2Proof/Machine/Dispatch.lean ====
section
/-! DEFINITION. What each of the seven commands does (spec/30_encoding.md R87, R88 step 6): one arm per constructor of Instr. -/

namespace Sys2Proof.Machine

def exec (i : Instr) (s : State) : Host.Outcome State Fault Refusal :=
  match i with
  | .nop => Sys2Proof.Machine.execNop s
  | .kgen n => Sys2Proof.Machine.execKgen n s
  | .enc => Sys2Proof.Machine.execEnc s
  | .dec => Sys2Proof.Machine.execDec s
  | .xfwd t j => Sys2Proof.Machine.execXfwd t j s
  | .xinv t j => Sys2Proof.Machine.execXinv t j s
  | .reset => Sys2Proof.Machine.execReset s

end Sys2Proof.Machine
end

