-- ==== Sys2Proof/Machine/Flags.lean ====
section
/-! DEFINITION. The only status bits there are: the register STATUS (spec/10_state.md R29). No command sets or reads a flag:
carries and borrows are discarded (R35). -/

namespace Sys2Proof.Machine

/-- The number of a fault code (60_exceptions.md R221). -/
def FCode.code : FCode → Nat
  | .noFault => 0
  | .illegalCmd => 1
  | .lenRange => 2
  | .emptyKt => 3
  | .badAddr => 4
  | .badAccess => 5

/-- The field FAULT of STATUS: 1 if FCODE is non-zero, else 0 (R29). -/
def faultBit (s : State) : Nat := if s.fcode = .noFault then 0 else 1

/-- The field KRDY of STATUS: 1 if KLEN >= 1, else 0 (R29). -/
def krdyBit (s : State) : Nat := if s.klen = 0 then 0 else 1

/-- What a HostRead of STATUS returns: `FAULT + 2*KRDY + 16*FCODE + 256*KLEN + 65536*KT_CAP` (R29). -/
def statusWord (s : State) : Word :=
  BitVec.ofNat 64 (faultBit s + 2 * krdyBit s + 16 * s.fcode.code + 256 * s.klen + 65536 * s.cfg.ktCap)

end Sys2Proof.Machine
end

