-- ==== Sys2Proof/Machine/Registers.lean ====
section
/-! DEFINITION. The register address space: which register stands at an address, what it holds, and who may write it
(spec/20_memory.md R52, R53, R55). -/

namespace Sys2Proof.Machine

/-- The address map (R52): the register at an address, or none where the address is unmapped. -/
def regAt (cfg : Config) (a : Addr) : Option Reg :=
  match a.toNat with
  | 0x00 => some .cmd
  | 0x01 => some .status
  | 0x02 => some .finfo
  | 0x04 => some .p
  | 0x05 => some .q
  | 0x06 => some .s
  | 0x07 => some .psn
  | 0x08 => some .b
  | n => if 0x10 ≤ n ∧ n < 0x10 + cfg.ktCap then some (.kt (n - 0x10)) else none

/-- The address of a register (30_encoding.md R94). -/
def regAddr : Reg → Addr
  | .cmd => 0x00
  | .status => 0x01
  | .finfo => 0x02
  | .p => 0x04
  | .q => 0x05
  | .s => 0x06
  | .psn => 0x07
  | .b => 0x08
  | .kt j => BitVec.ofNat 8 (0x10 + j)

/-- What a HostRead of a register returns (R55); none for CMD, which is write only (10_state.md R28). -/
def regValue (r : Reg) (s : State) : Option Word :=
  match r with
  | .cmd => none
  | .status => some (statusWord s)
  | .finfo => some s.finfo
  | .p => some s.p
  | .q => some s.q
  | .s => some s.s
  | .psn => some s.psn
  | .b => some s.b
  | .kt j => some (ktEntry s.kt j)

/-- What a HostWrite of a data register leaves (R53); none for the registers that hold no written data: CMD, which executes
instead (R54), and the read-only ones (R56). -/
def regWrite (r : Reg) (d : Word) (s : State) : Option State :=
  match r with
  | .p => some (setP d s)
  | .q => some (setQ d s)
  | .s => some (setS d s)
  | .psn => some (setPsn d s)
  | .b => some (setB d s)
  | .cmd => none
  | .status => none
  | .finfo => none
  | .kt _ => none

/-- FINFO of an address fault on a read: the address (R56, R57; 60_exceptions.md R228). -/
def readInfo (a : Addr) : Word := BitVec.ofNat 64 a.toNat

/-- FINFO of an address fault on a write: 0x100 + the address (R56, R57; 60_exceptions.md R228). -/
def writeInfo (a : Addr) : Word := BitVec.ofNat 64 (0x100 + a.toNat)

end Sys2Proof.Machine
end

