-- ==== Sys2Proof/Machine/Transactions.lean ====
section
/-! DEFINITION. The three kinds of host event and their effect (spec/00_scope.md R13, 20_memory.md R53 to R57,
60_exceptions.md R233), serving the oldest waiting one, and serving a list of them in order (20_memory.md R65). -/

namespace Sys2Proof.Machine

/-- `HostWrite(0x00, d)`, engine not faulted (20_memory.md R54; 30_encoding.md R88): a word that decodes is executed, any other
raises ILLEGAL_CMD with FINFO = d. -/
def runCommandWord (d : Word) (s : State) : Result :=
  match decode d with
  | .ok i => exec i s
  | .error _ => .next (raiseFault .illegalCmd d s)

/-- `HostWrite(a, d)` while faulted (60_exceptions.md R233): only the exact RESET word to CMD has an effect. -/
def hostWriteFaulted (a : Addr) (d : Word) (s : State) : Result :=
  if a = 0x00 ∧ d = 0x0000000000000007 then exec .reset s else .next s

/-- `HostWrite(a, d)` (20_memory.md R53, R54, R56, R57; the order of the checks is 60_exceptions.md R231). -/
def hostWrite (a : Addr) (d : Word) (s : State) : Result :=
  if s.fcode = .noFault then
    match regAt s.cfg a with
    | none => .next (raiseFault .badAddr (writeInfo a) s)
    | some .cmd => runCommandWord d s
    | some r =>
      match regWrite r d s with
      | some s' => .next s'
      | none => .next (raiseFault .badAccess (writeInfo a) s)
  else hostWriteFaulted a d s

/-- `HostRead(a)` (20_memory.md R55 to R57). A bad read returns 0; it raises its fault, which a faulted engine does not record
(60_exceptions.md R233). -/
def hostRead (a : Addr) (s : State) : Result :=
  match regAt s.cfg a with
  | none => .next (reply 0 (raiseFault .badAddr (readInfo a) s))
  | some r =>
    match regValue r s with
    | some v => .next (reply v s)
    | none => .next (reply 0 (raiseFault .badAccess (readInfo a) s))

/-- The engine serves one host event, completely (00_scope.md R19; 20_memory.md R65). `HardReset` has the effect of RESET
(70_reset_and_hazards.md R260). -/
def serve (e : HostEvent) (s : State) : Result :=
  match e with
  | .write a d => hostWrite a d s
  | .read a => hostRead a s
  | .hardReset => .next (resetEngine s)

/-- One step: the oldest waiting event is taken and served; where none waits the engine performs no step of its own and its
state stays (00_scope.md R19; log entry 3). -/
def serveOldest (s : State) : Result :=
  match s.inbox with
  | [] => .next s
  | e :: es => serve e (setInbox es s)

/-- The events served in order, each complete before the next begins (20_memory.md R65). -/
def serveAll : List HostEvent → State → Result
  | [], s => .next s
  | e :: es, s => andThen (serve e s) (serveAll es)

end Sys2Proof.Machine
end

