-- ==== Sys2Proof/Machine/Step.lean ====
section
/-! DEFINITION. The step of the machine: one host event (spec/00_scope.md R19). -/

namespace Sys2Proof.Machine

/-- One step: the engine serves the oldest event that waits for it. -/
def step : State → Host.Outcome State Fault Refusal := serveOldest

/-- The state where the next step serves the command word made of the low `nbits` bits of `w`: a HostWrite of it to CMD stands
first in the inbox (30_encoding.md R80; log entry 1). Nothing else changes. -/
def State.withFetchWord (s : State) (nbits w : Nat) : State :=
  setInbox (.write 0x00 (BitVec.ofNat 64 (w % 2 ^ nbits)) :: s.inbox) s

end Sys2Proof.Machine
end

