-- ==== Sys2Proof/Machine/Framing.lean ====
section
/-! DEFINITION. The host's pure functions around the engine (spec/45_host_framing.md): the Framer, text to blocks and back, and
the PositionSelector. They add no state, command or fault to the engine (R190). -/

namespace Sys2Proof.Machine

/-- A text: a finite sequence of Unicode scalar values, which is what Lean's `Char` holds (45_host_framing.md; log entry 7). -/
abbrev Text := List Char

/-- The byte of a number below 256. -/
def byteOf (n : Nat) : Byte := BitVec.ofNat 8 n

/-- The UTF-8 encoding of one scalar value (R191). -/
def utf8OfScalar (c : Char) : List Byte :=
  let n := c.toNat
  if n ≤ 0x7F then [byteOf n]
  else if n ≤ 0x7FF then [byteOf (0xC0 + natField n 10 6), byteOf (0x80 + natField n 5 0)]
  else if n ≤ 0xFFFF then
    [byteOf (0xE0 + natField n 15 12), byteOf (0x80 + natField n 11 6), byteOf (0x80 + natField n 5 0)]
  else
    [byteOf (0xF0 + natField n 20 18), byteOf (0x80 + natField n 17 12), byteOf (0x80 + natField n 11 6),
      byteOf (0x80 + natField n 5 0)]

/-- `Utf8Encode(text)`: the encodings of its scalar values in order (R191). -/
def utf8Encode (t : Text) : List Byte := t.flatMap utf8OfScalar

/-- Block m of a byte string: byte j of its chunk is `y[8m + j]`, or 0 past the end, and weighs `256^(7 - j)` (R192). -/
def blockAt (y : List Byte) (m : Nat) : Word :=
  BitVec.ofNat 64 (((List.range blockBytes).map fun j => (y.getD (8 * m + j) 0).toNat * 256 ^ (7 - j)).sum)

/-- `BytesToBlocks(y)`: ceil(L / 8) blocks, only the last one padded (R192). -/
def bytesToBlocks (y : List Byte) : List Word := (List.range ((y.length + 7) / 8)).map (blockAt y)

/-- `TextToBlocks(text)` (R192). -/
def textToBlocks (t : Text) : List Word := bytesToBlocks (utf8Encode t)

/-- Byte j of a block, `b[63-8j : 56-8j]`: byte 0 is the most significant (00_scope.md R10). -/
def blockByte (b : Word) (j : Nat) : Byte := byteOf (bitField b (63 - 8 * j) (56 - 8 * j))

/-- `BlocksToBytes(blocks)`: the 8 bytes of each block, most significant first (R194). -/
def blocksToBytes (bs : List Word) : List Byte := bs.flatMap fun b => (List.range blockBytes).map (blockByte b)

/-- `StripTrailingZeros(y)`: y without its longest suffix of bytes 0x00 (R195). -/
def stripTrailingZeros (y : List Byte) : List Byte := (y.reverse.dropWhile fun x => x == 0).reverse

/-- The text's characters are encoded in the byte string, in order, as disjoint substrings (R196, property 3). -/
inductive EncodedWithin : Text → List Byte → Prop where
  | nil (gap : List Byte) : EncodedWithin [] gap
  | cons (c : Char) (t : Text) (gap rest : List Byte) (h : EncodedWithin t rest) :
      EncodedWithin (c :: t) (gap ++ utf8OfScalar c ++ rest)

/-- The open parameter `Utf8DecodeLossy`: a total function with the required properties of R196 "and nothing more" (log
entry 8). -/
structure Utf8Decoder where
  /-- The decoder: defined on every byte string, never an error (property 1). -/
  decode : List Byte → Text
  /-- Exact on valid input (property 2). -/
  exact_on_valid : ∀ t, decode (utf8Encode t) = t
  /-- It drops bytes; it never inserts and never reorders (property 3). -/
  only_from_input : ∀ y, EncodedWithin (decode y) y

/-- `BlocksToText(blocks)`: bytes first, strip second, decode last (R197). -/
def blocksToText (dec : Utf8Decoder) (bs : List Word) : Text :=
  dec.decode (stripTrailingZeros (blocksToBytes bs))

/-- `SelectInitialPosition(y)`: the sum of the bytes modulo 16 (R199); for the empty string the draw (R200), a free input of
the host's with no other law than 0 <= r < 16 (log entry 9). -/
def selectInitialPosition (draw : Fin 16) (y : List Byte) : Nat :=
  if y = [] then draw.val else (y.map BitVec.toNat).sum % selectorModulus

end Sys2Proof.Machine
end

