-- ==== Sys2Proof/Machine/Messages.lean ====
section
/-! DEFINITION. The host's procedures: the boot sequence (spec/70_reset_and_hazards.md R264) and the encipherment and
decipherment of a whole message (45_host_framing.md R202, R203). Each is a list of host events and what it reads. -/

namespace Sys2Proof.Machine

/-- Steps 1 to 5 of R264: check STATUS, write the seeds, each reduced modulo 2^64 (R266), KGEN n, check STATUS, write the
position. DESIGN CHOICE among the orders R264 allows: step 1 is taken, the seeds in the order P, Q, S, and step 5 last (log entry
21). -/
def bootEvents (p q s n psn : Nat) : List HostEvent :=
  [.read (regAddr .status), .write (regAddr .p) (BitVec.ofNat 64 p), .write (regAddr .q) (BitVec.ofNat 64 q),
    .write (regAddr .s) (BitVec.ofNat 64 s), .write (regAddr .cmd) (encode (.kgen n)), .read (regAddr .status),
    .write (regAddr .psn) (BitVec.ofNat 64 psn)]

/-- Step 6 of R264, for one block: write `B`, the command, read `B`. -/
def blockEvents (i : Instr) (v : Word) : List HostEvent :=
  [.write (regAddr .b) v, .write (regAddr .cmd) (encode i), .read (regAddr .b)]

/-- The position is written once, then the blocks follow in order (R202, R203; 42_block_cipher.md R164). A position of more than 64
bits, which no rule gives, is written modulo 2^64 (DESIGN CHOICE, log entry 21). -/
def messageEvents (i : Instr) (psn : Nat) (blocks : List Word) : List HostEvent :=
  .write (regAddr .psn) (BitVec.ofNat 64 psn) :: blocks.flatMap (blockEvents i)

/-- What the host read between two states. -/
def wordsRead (before after : State) : List Word := after.outbox.drop before.outbox.length

/-- `EncryptMessage(text)` (R202): the cipher blocks, the position, and the engine after it. -/
def encryptMessage (draw : Fin 16) (t : Text) (s : State) : Option (List Word × Nat × State) :=
  let psn := selectInitialPosition draw (utf8Encode t)
  match serveAll (messageEvents .enc psn (textToBlocks t)) s with
  | .next s' => some (wordsRead s s', psn, s')
  | .fault _ => none
  | .refused _ => none

/-- `DecryptMessage(cipher, psn)` (R203): the text, and the engine after it. -/
def decryptMessage (dec : Utf8Decoder) (cipher : List Word) (psn : Nat) (s : State) : Option (Text × State) :=
  match serveAll (messageEvents .dec psn cipher) s with
  | .next s' => some (blocksToText dec (wordsRead s s'), s')
  | .fault _ => none
  | .refused _ => none

end Sys2Proof.Machine
end

