-- ==== Sys2Proof/Machine/Runs.lean ====
section
/-! DEFINITION. Runs of the machine: what k steps answer (spec/20_memory.md R65). -/

namespace Sys2Proof.Machine

/-- What `k` steps answer: each step begins in the state the one before it left. -/
def runSteps : Nat → State → Result
  | 0, s => .next s
  | k + 1, s => andThen (step s) (runSteps k)

end Sys2Proof.Machine
end

