-- ==== Sys2Proof/Machine/Scripts.lean ====
section
/-! DEFINITION. Host scripts: the events of a line and of a pseudo-command (spec/30_encoding.md R93, R96), running a script,
and reading one from its text (R93 to R95; log entry 12). -/

namespace Sys2Proof.Machine

/-- The events a script line stands for (R93, R96). `klen` is the KLEN field that `RDKT`'s own read of STATUS returned: how many
entries it goes on to read. -/
def lineEvents (klen : Nat) : ScriptLine → List HostEvent
  | .wr r v => [.write (regAddr r) v]
  | .rd r => [.read (regAddr r)]
  | .cmd i => [.write (regAddr .cmd) (encode i)]
  | .hreset => [.hardReset]
  | .wra a v => [.write a v]
  | .rda a => [.read a]
  | .seed p q s => [.write (regAddr .p) p, .write (regAddr .q) q, .write (regAddr .s) s]
  | .generate p q s n =>
    [.write (regAddr .p) p, .write (regAddr .q) q, .write (regAddr .s) s, .write (regAddr .cmd) (encode (.kgen n))]
  | .encblk v => [.write (regAddr .b) v, .write (regAddr .cmd) (encode .enc), .read (regAddr .b)]
  | .decblk v => [.write (regAddr .b) v, .write (regAddr .cmd) (encode .dec), .read (regAddr .b)]
  | .rdkt => .read (regAddr .status) :: (List.range klen).map fun j => .read (regAddr (.kt j))

/-- A script, "executed top to bottom" (R93). -/
def runScript : List ScriptLine → State → Result
  | [], s => .next s
  | l :: ls, s => andThen (serveAll (lineEvents (bitField (statusWord s) 15 8) l) s) (runScript ls)

/-- The value of a digit in a base up to 16. R8 and R93 do not say in which case hexadecimal digits are written, and the spec
prints capitals; DESIGN CHOICE: `a` to `f` and `A` to `F` are the same digits (log entry 12). -/
def digitValue (base : Nat) (c : Char) : Option Nat :=
  let v :=
    if '0'.toNat ≤ c.toNat ∧ c.toNat ≤ '9'.toNat then c.toNat - '0'.toNat
    else if 'a'.toNat ≤ c.toNat ∧ c.toNat ≤ 'f'.toNat then c.toNat - 'a'.toNat + 10
    else if 'A'.toNat ≤ c.toNat ∧ c.toNat ≤ 'F'.toNat then c.toNat - 'A'.toNat + 10
    else base
  if v < base then some v else none

/-- Digits of a base, continuing the number `acc`. R8 lets digits be grouped with `_` and does not say where it may stand; DESIGN
CHOICE: anywhere among the digits, also first (`_5`, `0x_1`), last (`5_`) and twice in a row, and it is skipped (log entry
12). -/
def digitsFrom (base : Nat) : Nat → List Char → Option Nat
  | acc, [] => some acc
  | acc, c :: cs =>
    if c = '_' then digitsFrom base acc cs
    else
      match digitValue base c with
      | some v => digitsFrom base (acc * base + v) cs
      | none => none

/-- A number of a base: at least one digit (R93); `_` alone is none (log entry 12). -/
def parseDigits (base : Nat) (ds : List Char) : Option Nat :=
  if ds.all (· == '_') then none else digitsFrom base 0 ds

/-- A number: decimal, or `0x` and hexadecimal digits (R93). DESIGN CHOICE: the `x` is small, as R8 and R93 print it, and zeros
may lead (log entry 12). -/
def parseNumber (cs : List Char) : Option Nat :=
  match cs with
  | '0' :: 'x' :: ds => parseDigits 16 ds
  | ds => parseDigits 10 ds

/-- A word of a script line, or the line: its characters. -/
abbrev ScriptText := List Char

/-- A number below a bound; any other is an error of the script. R95 says so of the operands of commands; DESIGN CHOICE for values,
raw addresses and table indices, of whose excess no rule speaks (log entries 12 and 20). -/
def parseBelow (bound : Nat) (w : ScriptText) : Option Nat :=
  match parseNumber w with
  | some n => if n < bound then some n else none
  | none => none

/-- A 64-bit value (R93); a larger number is an error of the script (DESIGN CHOICE, log entry 12). -/
def parseWord (w : ScriptText) : Option Word := (parseBelow (2 ^ 64) w).map (BitVec.ofNat 64)

/-- A raw address (R93), of 8 bits (20_memory.md R51); a larger number is an error of the script (DESIGN CHOICE, log entry 12). -/
def parseAddr (w : ScriptText) : Option Addr := (parseBelow (2 ^ 8) w).map (BitVec.ofNat 8)

/-- A transform operand t, 0 to 3 (R95). -/
def parseTransform (w : ScriptText) : Option Transform := (parseBelow 4 w).map Transform.ofIdx

/-- The index in `KT[j]`, its closing bracket last (R94). R52 and R11 have `KT[j]` for j < KT_CAP only, and no rule says whether a
line that names a later entry is an error of the script. DESIGN CHOICE (log entry 20): in every configuration the name is taken
for j < 240, whose address 0x10 + j has 8 bits, and for KT_CAP <= j the line is the access of that unmapped address, which
raises BAD_ADDR (R57); for j >= 240 it is an error of the script. -/
def parseIndex (w : ScriptText) : Option Nat :=
  match w.reverse with
  | ']' :: digits => parseBelow 240 digits.reverse
  | _ => none

/-- A register by its script name (R94), in capitals as printed (log entry 12). -/
def parseReg (w : ScriptText) : Option Reg :=
  match w with
  | ['C', 'M', 'D'] => some .cmd
  | ['S', 'T', 'A', 'T', 'U', 'S'] => some .status
  | ['F', 'I', 'N', 'F', 'O'] => some .finfo
  | ['P'] => some .p
  | ['Q'] => some .q
  | ['S'] => some .s
  | ['P', 'S', 'N'] => some .psn
  | ['B'] => some .b
  | 'K' :: 'T' :: '[' :: rest => (parseIndex rest).map Reg.kt
  | _ => none

/-- A command by its mnemonic and operands (R95). -/
def parseCommand (ws : List ScriptText) : Option Instr :=
  match ws with
  | [['N', 'O', 'P']] => some .nop
  | [['K', 'G', 'E', 'N'], n] => (parseBelow 256 n).map Instr.kgen
  | [['E', 'N', 'C']] => some .enc
  | [['D', 'E', 'C']] => some .dec
  | [['X', 'F', 'W', 'D'], t, j] => (parseTransform t).bind fun t => (parseBelow 4 j).map (Instr.xfwd t)
  | [['X', 'I', 'N', 'V'], t, j] => (parseTransform t).bind fun t => (parseBelow 4 j).map (Instr.xinv t)
  | [['R', 'E', 'S', 'E', 'T']] => some .reset
  | _ => none

/-- A line that stands for one host event, from its words (R93). -/
def parseEventLine (ws : List ScriptText) : Option ScriptLine :=
  match ws with
  | [['W', 'R'], r, v] => (parseReg r).bind fun r => (parseWord v).map (ScriptLine.wr r)
  | [['R', 'D'], r] => (parseReg r).map ScriptLine.rd
  | ['C', 'M', 'D'] :: cmd => (parseCommand cmd).map ScriptLine.cmd
  | [['H', 'R', 'E', 'S', 'E', 'T']] => some .hreset
  | [['W', 'R', 'A'], a, v] => (parseAddr a).bind fun a => (parseWord v).map (ScriptLine.wra a)
  | [['R', 'D', 'A'], a] => (parseAddr a).map ScriptLine.rda
  | _ => none

/-- A pseudo-command, from its words (R96). -/
def parsePseudo (ws : List ScriptText) : Option ScriptLine :=
  match ws with
  | [['S', 'E', 'E', 'D'], p, q, s] =>
    (parseWord p).bind fun p => (parseWord q).bind fun q => (parseWord s).map (ScriptLine.seed p q)
  | [['G', 'E', 'N', 'E', 'R', 'A', 'T', 'E'], p, q, s, n] =>
    (parseWord p).bind fun p => (parseWord q).bind fun q => (parseWord s).bind fun s =>
      (parseBelow 256 n).map (ScriptLine.generate p q s)
  | [['E', 'N', 'C', 'B', 'L', 'K'], v] => (parseWord v).map ScriptLine.encblk
  | [['D', 'E', 'C', 'B', 'L', 'K'], v] => (parseWord v).map ScriptLine.decblk
  | [['R', 'D', 'K', 'T']] => some .rdkt
  | _ => none

/-- A line from its words (R93, R96). -/
def parseWords (ws : List ScriptText) : Option ScriptLine :=
  match parseEventLine ws with
  | some line => some line
  | none => parsePseudo ws

/-- The words of a line, `acc` being the characters of the one begun, last first: `;` starts a comment (R93); spaces, tabs and
commas part the words (DESIGN CHOICE, log entry 12). -/
def lineWords : ScriptText → ScriptText → List ScriptText
  | acc, [] => if acc = [] then [] else [acc.reverse]
  | acc, c :: cs =>
    if c = ';' then (if acc = [] then [] else [acc.reverse])
    else if c = ' ' ∨ c = '\t' ∨ c = ',' then
      if acc = [] then lineWords [] cs else acc.reverse :: lineWords [] cs
    else lineWords (c :: acc) cs

/-- The script of a list of text lines, blank and comment lines left out; none where a line is an error of the script (DESIGN
CHOICE: one such line makes the whole text no script, log entry 12). -/
def parseScript : List ScriptText → Option (List ScriptLine)
  | [] => some []
  | l :: ls =>
    match lineWords [] l with
    | [] => parseScript ls
    | w :: ws => (parseWords (w :: ws)).bind fun line => (parseScript ls).map (line :: ·)

end Sys2Proof.Machine
end

