-- ==== Sys2Proof/WellFormed.lean ====
section
/-! DEFINITION. The operand ranges of the commands and of the script lines (spec/30_encoding.md R95: "An operand outside
its range cannot be encoded and is an error of the script, not of the engine"). -/

namespace Sys2Proof

/-- The operands fit their fields: n in 0..255, j in 0..3 (R85, R86, R95). The transform operand t is one of four by its
type. -/
def Instr.wf : Instr → Bool
  | .nop => true
  | .kgen n => decide (n ≤ 255)
  | .enc => true
  | .dec => true
  | .xfwd _ j => decide (j ≤ 3)
  | .xinv _ j => decide (j ≤ 3)
  | .reset => true

/-- The register has an address: `KT[j]` stands at 0x10 + j, which must fit 8 bits (R94; 20_memory.md R51). DESIGN CHOICE: a
name past the table of the configuration, KT_CAP <= j <= 239, is well formed (log entry 20). -/
def Reg.wf : Reg → Bool
  | .kt j => decide (j ≤ 239)
  | _ => true

/-- The line names registers that have an address and commands that can be encoded (R93 to R96). -/
def ScriptLine.wf : ScriptLine → Bool
  | .wr r _ => r.wf
  | .rd r => r.wf
  | .cmd i => i.wf
  | .generate _ _ _ n => (Instr.kgen n).wf
  | _ => true

end Sys2Proof
end

