-- ==== Sys2Proof/Safety.lean ====
section
/-! DEFINITION. What the spec promises of every reachable state (spec/10_state.md R31; 60_exceptions.md R221, R228), and the
terms in which claims speak of runs (70_reset_and_hazards.md R264, R269). -/

namespace Sys2Proof.Safety

open Sys2Proof.Machine

/-- The state invariants of R31, for an engine of a legal configuration whose key table has KT_CAP entries (R6, R27): KLEN <=
KT_CAP, KT[j] = 0 for KLEN <= j < KT_CAP, and FINFO = 0 whenever FCODE = 0. (FCODE is one of the six codes by its type.) -/
abbrev StateInv (s : State) : Prop :=
  s.cfg.Legal ∧ s.kt.length = s.cfg.ktCap ∧ s.klen ≤ s.cfg.ktCap ∧
    (∀ j < s.cfg.ktCap, s.klen ≤ j → ktEntry s.kt j = 0) ∧ (s.fcode = .noFault → s.finfo = 0)

/-- The command needs a key: ENC, DEC, XFWD or XINV (60_exceptions.md R223). -/
def needsKey : Instr → Bool
  | .nop => false
  | .kgen _ => false
  | .enc => true
  | .dec => true
  | .xfwd _ _ => true
  | .xinv _ _ => true
  | .reset => false

/-- The recorded fault is one that its code allows (60_exceptions.md R221, R228): FINFO is a word no row selects; or a KGEN of
more than KT_CAP keys; or a command that needs a key, with no key there; or the address of an unmapped register, with the
direction in bit 8; or the address of a register that does not allow the access. -/
abbrev FaultRecord (s : State) : Prop :=
  match s.fcode with
  | .noFault => s.finfo = 0
  | .illegalCmd => ∀ r ∈ opcodeRows, r.selects s.finfo = false
  | .lenRange => ∃ n, s.cfg.ktCap < n ∧ n ≤ 255 ∧ s.finfo = encode (.kgen n)
  | .emptyKt => s.klen = 0 ∧ ∃ i, i.wf = true ∧ needsKey i = true ∧ s.finfo = encode i
  | .badAddr => ∃ a, regAt s.cfg a = none ∧ (s.finfo = readInfo a ∨ s.finfo = writeInfo a)
  | .badAccess =>
    s.finfo = readInfo (regAddr .cmd) ∨
      ∃ a r, regAt s.cfg a = some r ∧ r ≠ .cmd ∧ regWrite r 0 s = none ∧ s.finfo = writeInfo a

/-- The event resets the engine: HardReset, or the exact RESET word written to CMD (70_reset_and_hazards.md R260). -/
def resets : HostEvent → Bool
  | .write a d => a == 0x00 && d == 0x07
  | .read _ => false
  | .hardReset => true

/-- The host may trust what it has read since the last such check: STATUS.FAULT is 0 (70_reset_and_hazards.md R269). -/
abbrev ResultsTrusted (s : State) : Prop := s.fcode = .noFault

/-- The engine is ready for ENC, DEC, XFWD and XINV (step 4 of R264): no fault, and a non-empty key table. -/
abbrev CipherReady (s : State) : Prop := s.fcode = .noFault ∧ 1 ≤ s.klen

/-- The two engines hold the same state, all that R20 lists, in the same configuration. What waits for them and what was read
from them may differ. -/
abbrev SameEngine (s t : State) : Prop := t.cfg = s.cfg ∧ t.toEngine = s.toEngine

end Sys2Proof.Safety
end

