-- ==== Sys2Proof/Certificates/Slice0/Obligations.lean ====
section
/-! DEFINITION. The statements about the PCE-CORE cipher engine, in the order of spec/'s files. A statement about one
transaction is about a state whose inbox begins with it (the inbox and the outbox are the model's form of R13's events and of what
they return: log entries 1 and 2); `{ s with … }` on the right of an equation is the statement's frame: every field it does not
name is as before. -/

open Sys2Proof Sys2Proof.Machine Sys2Proof.Safety

/-! ### Arithmetic (00_scope.md) -/

/-- R12: each operator on 64-bit values is the number, or the bits, that the table gives. -/
def Obligations.ArithmeticOperatorsAreTheTables : Prop :=
  ∀ a b : Word,
    (∀ i < 64, (a ^^^ b).getLsbD i = decide (((a.getLsbD i).toNat + (b.getLsbD i).toNat) % 2 = 1)) ∧
    (a + b).toNat = (a.toNat + b.toNat) % 2 ^ 64 ∧
    (a - b).toNat = (if b.toNat ≤ a.toNat then a.toNat - b.toNat else a.toNat + 2 ^ 64 - b.toNat) ∧
    (a * b).toNat = a.toNat * b.toNat % 2 ^ 64 ∧
    (∀ r < 64, (shl64 a r).toNat = a.toNat * 2 ^ r % 2 ^ 64) ∧
    ∀ r, 0 < r → r < 64 →
      (rotl64 a r).toNat = a.toNat * 2 ^ r % 2 ^ 64 + a.toNat / 2 ^ (64 - r) ∧
      (∀ i < 64, (rotl64 a r).getLsbD i = a.getLsbD ((i + 64 - r) % 64)) ∧
      (rotr64 a r).toNat = a.toNat / 2 ^ r + a.toNat % 2 ^ r * 2 ^ (64 - r) ∧
      (∀ i < 64, (rotr64 a r).getLsbD i = a.getLsbD ((i + r) % 64)) ∧
      rotr64 (rotl64 a r) r = a ∧ rotl64 (rotr64 a r) r = a

/-! ### State, registers, ordering (10_state.md, 20_memory.md) -/

/-- R31, the invariant: every step keeps it, from every state that has it. -/
def Obligations.StateInvariantKeptByEveryStep : Prop :=
  ∀ s t, StateInv s → step s = .next t → StateInv t

/-- The state after reset has both invariants, in every legal configuration, and so has the machine's reset state (KT_CAP = 8: log
entry 4). -/
def Obligations.ResetStateMeetsTheInvariants : Prop :=
  (∀ cfg : Config, cfg.Legal → StateInv (State.resetOf cfg) ∧ FaultRecord (State.resetOf cfg)) ∧
    StateInv State.reset ∧ FaultRecord State.reset

/-- R31: what holds in every reachable state, whatever events the host presents after a reset (a step with no event waiting keeps
the state: log entry 3). -/
def Obligations.ReachableStatesKeepTheTableAndFaultLaws : Prop :=
  ∀ (cfg : Config) (es : List HostEvent) (k : Nat), cfg.Legal →
    ∃ t, runSteps k { State.resetOf cfg with inbox := es } = .next t ∧
      t.cfg = cfg ∧ t.klen ≤ cfg.ktCap ∧ (∀ j, t.klen ≤ j → j < cfg.ktCap → ktEntry t.kt j = 0) ∧
      t.fcode.code ∈ [0, 1, 2, 3, 4, 5] ∧ (t.fcode.code = 0 → t.finfo = 0)

/-- R29: the fields of the word that a HostRead of STATUS returns. -/
def Obligations.StatusReadGivesItsFields : Prop :=
  ∀ (s : State) (es : List HostEvent), StateInv s → s.inbox = .read 0x01 :: es →
    ∃ v, step s = .next { s with inbox := es, outbox := s.outbox ++ [v] } ∧
      bitField v 0 0 = (if s.fcode = .noFault then 0 else 1) ∧
      bitField v 1 1 = (if 1 ≤ s.klen then 1 else 0) ∧
      bitField v 3 2 = 0 ∧ bitField v 7 4 = s.fcode.code ∧ bitField v 15 8 = s.klen ∧
      bitField v 23 16 = s.cfg.ktCap ∧ bitField v 63 24 = 0

/-- R53: a HostWrite of a data register, engine not faulted. -/
def Obligations.DataRegisterTakesTheWrittenValue : Prop :=
  ∀ (s : State) (d : Word) (es : List HostEvent), s.fcode = .noFault →
    (s.inbox = .write 0x04 d :: es → step s = .next { s with inbox := es, p := d }) ∧
    (s.inbox = .write 0x05 d :: es → step s = .next { s with inbox := es, q := d }) ∧
    (s.inbox = .write 0x06 d :: es → step s = .next { s with inbox := es, s := d }) ∧
    (s.inbox = .write 0x07 d :: es → step s = .next { s with inbox := es, psn := d }) ∧
    (s.inbox = .write 0x08 d :: es → step s = .next { s with inbox := es, b := d })

/-- R55: a HostRead of a readable register, faulted or not, returns the value and changes no state; a key past KLEN reads 0;
after ENC a read of B returns the ciphertext block, after DEC the plaintext block. -/
def Obligations.ReadableRegisterReturnsItsValue : Prop :=
  ∀ (s : State) (es : List HostEvent), StateInv s →
    (∀ a v, (a, v) ∈ [((0x01 : Addr), statusWord s), (0x02, s.finfo), (0x04, s.p), (0x05, s.q), (0x06, s.s), (0x07, s.psn),
        (0x08, s.b)] →
      s.inbox = .read a :: es → step s = .next { s with inbox := es, outbox := s.outbox ++ [v] }) ∧
    (∀ j < s.cfg.ktCap, s.inbox = .read (BitVec.ofNat 8 (0x10 + j)) :: es →
      step s = .next { s with inbox := es, outbox := s.outbox ++ [ktEntry s.kt j] } ∧
      (s.klen ≤ j → step s = .next { s with inbox := es, outbox := s.outbox ++ [0] })) ∧
    (∀ v, CipherReady s → s.inbox = .write 0x00 0x02 :: .read 0x08 :: es → encBlock s.b s.kt s.klen s.psn.toNat = some v →
      runSteps 2 s = .next { s with inbox := es, b := v, outbox := s.outbox ++ [v] }) ∧
    (∀ v, CipherReady s → s.inbox = .write 0x00 0x03 :: .read 0x08 :: es → decBlock s.b s.kt s.klen s.psn.toNat = some v →
      runSteps 2 s = .next { s with inbox := es, b := v, outbox := s.outbox ++ [v] })

/-- R56 and R226: an access the register does not allow. -/
def Obligations.ForbiddenAccessRaisesBadAccess : Prop :=
  ∀ (s : State) (a : Addr) (d : Word) (es : List HostEvent), s.fcode = .noFault →
    (a = 0x01 ∨ a = 0x02 ∨ 0x10 ≤ a.toNat ∧ a.toNat < 0x10 + s.cfg.ktCap → s.inbox = .write a d :: es →
      step s = .next { s with inbox := es, fcode := .badAccess, finfo := BitVec.ofNat 64 (0x100 + a.toNat) }) ∧
    (s.inbox = .read 0x00 :: es →
      step s = .next { s with inbox := es, fcode := .badAccess, finfo := 0, outbox := s.outbox ++ [0] })

/-- R57 and R225: an access to an unmapped address. -/
def Obligations.UnmappedAddressRaisesBadAddr : Prop :=
  ∀ (s : State) (a : Addr) (d : Word) (es : List HostEvent), s.fcode = .noFault →
    a = 0x03 ∨ 0x09 ≤ a.toNat ∧ a.toNat ≤ 0x0F ∨ 0x10 + s.cfg.ktCap ≤ a.toNat →
    (s.inbox = .read a :: es →
      step s = .next
        { s with inbox := es, fcode := .badAddr, finfo := BitVec.ofNat 64 a.toNat, outbox := s.outbox ++ [0] }) ∧
    (s.inbox = .write a d :: es →
      step s = .next { s with inbox := es, fcode := .badAddr, finfo := BitVec.ofNat 64 (0x100 + a.toNat) })

/-- R59 and R62: reading any readable register after a data register was written gives the written value where it is the same
register, and the old value where it is another. -/
def Obligations.ReadAfterWriteOfDataRegister : Prop :=
  ∀ (s : State) (a a' : Addr) (r' : Reg) (d v : Word) (es : List HostEvent), s.fcode = .noFault →
    0x04 ≤ a.toNat → a.toNat ≤ 0x08 → regAt s.cfg a' = some r' → regValue r' s = some v →
    s.inbox = .write a d :: .read a' :: es →
    ∃ t, runSteps 2 s = .next t ∧ t.inbox = es ∧ t.outbox = s.outbox ++ [if a' = a then d else v]

/-- R65: the run of the machine over a list of waiting events is the events served in order, one a step, each of them complete
before the next; none of them touches the events that wait behind. -/
def Obligations.RunIsTheEventsServedInOrder : Prop :=
  ∀ (es rest : List HostEvent) (s : State),
    ∃ t, serveAll es { s with inbox := rest } = .next t ∧ t.inbox = rest ∧
      runSteps es.length { s with inbox := es ++ rest } = .next t

/-- The model's choice (log entry 3, from R19): an engine for which no event waits keeps its state. -/
def Obligations.EngineWithoutEventsStays : Prop :=
  ∀ (s : State) (k : Nat), s.inbox = [] → runSteps k s = .next s

/-- "No transaction fails to complete" (93_implementation_defined.md part 2): every step answers a next state. -/
def Obligations.EveryStepAnswersANextState : Prop :=
  ∀ s, ∃ t, step s = .next t

/-! ### Encoding (30_encoding.md) -/

/-- The words of R87's examples and of 95_test_vectors.md section 5. -/
def Obligations.DecoderReadsTheSpecsWords : Prop :=
  decode 0x0000000000000000 = .ok .nop ∧ decode 0x0000000000000801 = .ok (.kgen 8) ∧
    decode 0x0000000000000002 = .ok .enc ∧ decode 0x0000000000000003 = .ok .dec ∧
    decode 0x0000000000000604 = .ok (.xfwd .addk 1) ∧ decode 0x0000000000000F05 = .ok (.xinv .ror7 3) ∧
    decode 0x0000000000000007 = .ok .reset ∧ decode 0x0000000000000006 = .error (.unassignedOpcode 6) ∧
    decode 0x0000000000001004 = .error .reservedOfFormatX ∧ decode 0x0000000000010901 = .error .reservedHighBits

/-- R87, R88: no operand of a well-formed command is lost or moved by its encoding. -/
def Obligations.DecodeOfEncodeIsTheInstruction : Prop :=
  ∀ i : Instr, i.wf = true → decode (encode i) = .ok i

/-- R87, R88: a word that decodes is the one word of a well-formed command. -/
def Obligations.EncodeOfDecodeIsTheWord : Prop :=
  ∀ (d : Word) (i : Instr), decode d = .ok i → encode i = d ∧ i.wf = true

/-- R87, R88: the decoder accepts exactly the words that a row of the opcode map selects, as the command of that row, and at
most one row selects a word. -/
def Obligations.DecoderAcceptsExactlyTheOpcodeMap : Prop :=
  ∀ d : Word,
    ((∃ i, decode d = .ok i) ↔ ∃ r ∈ opcodeRows, d &&& r.mask = r.pattern) ∧
    (∀ i, decode d = .ok i → ∃ r ∈ opcodeRows, d &&& r.mask = r.pattern ∧ r.mnemonic = i.mnemonic) ∧
    ∀ r ∈ opcodeRows, ∀ r' ∈ opcodeRows, d &&& r.mask = r.pattern → d &&& r'.mask = r'.pattern → r = r'

/-- R54, R88: a step whose event is a HostWrite to CMD of a word that decodes runs that command, faulted or not, with the event
taken from the inbox and nothing else changed around it; no command touches the inbox, the outbox or the configuration; and
`withFetchWord` is such a write. -/
def Obligations.StepRunsTheDecodedCommand : Prop :=
  (∀ (s : State) (d : Word) (i : Instr) (es : List HostEvent), s.inbox = .write 0x00 d :: es → decode d = .ok i →
    step s = exec i { s with inbox := es }) ∧
  (∀ (i : Instr) (s t : State), exec i s = .next t → t.inbox = s.inbox ∧ t.outbox = s.outbox ∧ t.cfg = s.cfg) ∧
  ∀ (i : Instr) (s : State), i.wf = true → step (s.withFetchWord 64 (encode i).toNat) = exec i s

/-! ### Key schedule (40_key_schedule.md) -/

/-- R113: only the seeds modulo 2^64 matter, and the 64-bit function computes the source's. -/
def Obligations.SeedsCountModuloTwoToTheSixtyFour : Prop :=
  ∀ p q s n : Nat,
    generateNat p q s n = generateNat (p % 2 ^ 64) (q % 2 ^ 64) (s % 2 ^ 64) n ∧
    generateNat p q s n =
      (generate (BitVec.ofNat 64 p) (BitVec.ofNat 64 q) (BitVec.ofNat 64 s) n).map BitVec.toNat

/-- R115: a shorter table is the beginning of a longer one. -/
def Obligations.ShorterTableIsAPrefix : Prop :=
  ∀ n m : Nat, n ≤ m →
    (∀ p q s : Nat, generateNat p q s n = (generateNat p q s m).take n ∧ (generateNat p q s n).length = n) ∧
    ∀ p q s : Word, generate p q s n = (generate p q s m).take n

/-- R116: the closed form of the state and of the subkeys, and what follows from it. -/
def Obligations.SubkeysFollowTheClosedForm : Prop :=
  ∀ (p q s : Word) (i : Nat),
    let st : Word → Nat → Word := fun s i => (List.range i).foldl (fun acc m => acc ^^^ q <<< (3 * m)) (s <<< (3 * i))
    (fun x : Word => shl64 x 3 ^^^ q)^[i] s = st s i ∧
    (∀ n, i < n → (generate p q s n)[i]? = some ((p ^^^ st s i) * q)) ∧
    (22 ≤ i → ∀ s' : Word, st s' i = st s i) ∧
    (1 ≤ i → (st s i).toNat % 8 = q.toNat % 8)

/-- R117: KGEN n replaces the whole table and KLEN, and nothing else; more than KT_CAP keys are LEN_RANGE; its word, and the
words that are turned away before it. -/
def Obligations.KgenFillsTheKeyTable : Prop :=
  ∀ (n : Nat) (s : State), s.fcode = .noFault →
    (n ≤ 255 → decode (BitVec.ofNat 64 (0x01 + 0x100 * n)) = .ok (.kgen n)) ∧
    (∀ (d : Word) (es : List HostEvent), s.inbox = .write 0x00 d :: es → bitField d 7 0 = 0x01 → bitField d 63 16 ≠ 0 →
      step s = .next { s with inbox := es, fcode := .illegalCmd, finfo := d }) ∧
    (n ≤ s.cfg.ktCap → ∃ t, exec (.kgen n) s = .next t ∧ t = { s with kt := t.kt, klen := n } ∧
      t.kt.length = s.cfg.ktCap ∧
      (∀ j < n, ktEntry t.kt j = (s.p ^^^ (fun x : Word => x <<< 3 ^^^ s.q)^[j] s.s) * s.q) ∧
      (∀ j, n ≤ j → j < s.cfg.ktCap → ktEntry t.kt j = 0) ∧
      bitField (statusWord t) 1 1 = if 1 ≤ n then 1 else 0) ∧
    (s.cfg.ktCap < n →
      exec (.kgen n) s = .next { s with fcode := .lenRange, finfo := BitVec.ofNat 64 (0x01 + 0x100 * n) })

/-- R112, R118 point 6, R238: KGEN n again changes nothing more, and two engines with the same seeds and configuration hold the
same table after the same KGEN. -/
def Obligations.KgenIsDeterminedByTheSeeds : Prop :=
  (∀ (n : Nat) (s t : State), exec (.kgen n) s = .next t → exec (.kgen n) t = .next t) ∧
  ∀ (n : Nat) (s u s' u' : State), s.fcode = .noFault → u.fcode = .noFault → n ≤ s.cfg.ktCap → u.cfg = s.cfg →
    u.p = s.p → u.q = s.q → u.s = s.s → exec (.kgen n) s = .next s' → exec (.kgen n) u = .next u' →
    u'.kt = s'.kt ∧ u'.klen = s'.klen

/-- R118 point 7: KGEN m after KGEN n with m < n and unchanged seeds. -/
def Obligations.ShorterKgenKeepsTheFirstKeys : Prop :=
  ∀ (m n : Nat) (s t u : State), s.fcode = .noFault → m < n → n ≤ s.cfg.ktCap →
    exec (.kgen n) s = .next t → exec (.kgen m) t = .next u →
    (∀ j < m, ktEntry u.kt j = ktEntry t.kt j) ∧ (∀ j, m ≤ j → j < n → ktEntry u.kt j = 0) ∧ u.klen = m

/-! ### Elementary transforms (41_elementary_transforms.md) -/

/-- R139: each pair is an exact inverse, and each transform a bijection, for every key. -/
def Obligations.TransformsAreInverseBijections : Prop :=
  ∀ (t : Transform) (k : Word),
    (∀ x, inv t (fwd t x k) k = x ∧ fwd t (inv t x k) k = x) ∧
    Function.Bijective (fun x => fwd t x k) ∧ Function.Bijective (fun x => inv t x k)

/-- R140: the rotations ignore the key, and so XFWD and XINV of a rotation do the same whatever the key slot and the table. -/
def Obligations.RotationsIgnoreTheKey : Prop :=
  ∀ (s : State) (kt : List Word) (j j' : Nat), s.fcode = .noFault → 1 ≤ s.klen →
    ∀ t, t = .rol5 ∨ t = .ror7 →
      (∀ x k k' : Word, fwd t x k = fwd t x k' ∧ inv t x k = inv t x k') ∧
      (∃ u, exec (.xfwd t j) s = .next u ∧ exec (.xfwd t j') { s with kt := kt } = .next { u with kt := kt }) ∧
      ∃ u, exec (.xinv t j) s = .next u ∧ exec (.xinv t j') { s with kt := kt } = .next { u with kt := kt }

/-- R141: XFWD t, j, for each index t of R130; with no key, EMPTY_KT, whichever t; its word, and the words that are turned away
before it. -/
def Obligations.XfwdAppliesOneForwardTransform : Prop :=
  ∀ (s : State) (j : Nat), s.fcode = .noFault →
    (∀ t < 4, j < 4 → decode (BitVec.ofNat 64 (0x04 + 0x100 * t + 0x400 * j)) = .ok (.xfwd (Transform.ofIdx t) j)) ∧
    (∀ (d : Word) (es : List HostEvent), s.inbox = .write 0x00 d :: es → bitField d 7 0 = 0x04 →
      bitField d 15 12 ≠ 0 ∨ bitField d 63 16 ≠ 0 →
      step s = .next { s with inbox := es, fcode := .illegalCmd, finfo := d }) ∧
    (1 ≤ s.klen →
      exec (.xfwd (Transform.ofIdx 0) j) s = .next { s with b := s.b ^^^ ktEntry s.kt (j % s.klen) } ∧
      exec (.xfwd (Transform.ofIdx 1) j) s = .next { s with b := rotl64 s.b 5 } ∧
      exec (.xfwd (Transform.ofIdx 2) j) s = .next { s with b := s.b + ktEntry s.kt (j % s.klen) } ∧
      exec (.xfwd (Transform.ofIdx 3) j) s = .next { s with b := rotr64 s.b 7 }) ∧
    (s.klen = 0 → ∀ t < 4, exec (.xfwd (Transform.ofIdx t) j) s =
      .next { s with fcode := .emptyKt, finfo := BitVec.ofNat 64 (0x04 + 0x100 * t + 0x400 * j) })

/-- R142: XINV t, j, for each index t; with no key, EMPTY_KT; its word, and the words that are turned away before it; and
XFWD t, j and XINV t, j undo each other. -/
def Obligations.XinvAppliesOneInverseTransform : Prop :=
  ∀ (s : State) (j : Nat), s.fcode = .noFault →
    (∀ t < 4, j < 4 → decode (BitVec.ofNat 64 (0x05 + 0x100 * t + 0x400 * j)) = .ok (.xinv (Transform.ofIdx t) j)) ∧
    (∀ (d : Word) (es : List HostEvent), s.inbox = .write 0x00 d :: es → bitField d 7 0 = 0x05 →
      bitField d 15 12 ≠ 0 ∨ bitField d 63 16 ≠ 0 →
      step s = .next { s with inbox := es, fcode := .illegalCmd, finfo := d }) ∧
    (1 ≤ s.klen →
      exec (.xinv (Transform.ofIdx 0) j) s = .next { s with b := s.b ^^^ ktEntry s.kt (j % s.klen) } ∧
      exec (.xinv (Transform.ofIdx 1) j) s = .next { s with b := rotr64 s.b 5 } ∧
      exec (.xinv (Transform.ofIdx 2) j) s = .next { s with b := s.b - ktEntry s.kt (j % s.klen) } ∧
      exec (.xinv (Transform.ofIdx 3) j) s = .next { s with b := rotl64 s.b 7 } ∧
      ∀ t, andThen (exec (.xfwd t j) s) (exec (.xinv t j)) = .next s ∧
        andThen (exec (.xinv t j) s) (exec (.xfwd t j)) = .next s) ∧
    (s.klen = 0 → ∀ t < 4, exec (.xinv (Transform.ofIdx t) j) s =
      .next { s with fcode := .emptyKt, finfo := BitVec.ofNat 64 (0x05 + 0x100 * t + 0x400 * j) })

/-! ### Block cipher (42_block_cipher.md) -/

/-- R153: the pipeline of each position, written out, both directions. -/
def Obligations.PipelineOfEachPosition : Prop :=
  ∀ (b : Word) (kt : List Word) (len psn : Nat), 1 ≤ len →
    let K : Nat → Word := fun i => ktEntry kt (i % len)
    (psn % 4 = 0 → encBlock b kt len psn = some (rotr64 (rotl64 (b ^^^ K 0) 5 + K 2) 7) ∧
      decBlock b kt len psn = some (rotr64 (rotl64 b 7 - K 2) 5 ^^^ K 0)) ∧
    (psn % 4 = 1 → encBlock b kt len psn = some (rotr64 (rotl64 b 5 + K 1) 7 ^^^ K 3) ∧
      decBlock b kt len psn = some (rotr64 (rotl64 (b ^^^ K 3) 7 - K 1) 5)) ∧
    (psn % 4 = 2 → encBlock b kt len psn = some (rotl64 (rotr64 (b + K 0) 7 ^^^ K 2) 5) ∧
      decBlock b kt len psn = some (rotl64 (rotr64 b 5 ^^^ K 2) 7 - K 0)) ∧
    (psn % 4 = 3 → encBlock b kt len psn = some (rotl64 (rotr64 b 7 ^^^ K 1) 5 + K 3) ∧
      decBlock b kt len psn = some (rotl64 (rotr64 (b - K 3) 5 ^^^ K 1) 7))

/-- R154: only psn mod 4 matters, in the functions and in the commands. -/
def Obligations.OnlyThePositionModuloFourMatters : Prop :=
  (∀ (b : Word) (kt : List Word) (len psn : Nat),
    encBlock b kt len psn = encBlock b kt len (psn % 4) ∧ decBlock b kt len psn = decBlock b kt len (psn % 4)) ∧
  ∀ (s t u : State) (w : Word), bitField w 1 0 = bitField s.psn 1 0 →
    (exec .enc s = .next t → exec .enc { s with psn := w } = .next { t with psn := w }) ∧
    (exec .dec s = .next u → exec .dec { s with psn := w } = .next { u with psn := w })

/-- R155: which subkeys are used, for every length of the table. -/
def Obligations.OnlyTheFirstFourKeysAreUsed : Prop :=
  (∀ (b : Word) (kt kt' : List Word) (len psn : Nat), (∀ j < min len 4, ktEntry kt' j = ktEntry kt j) →
    encBlock b kt' len psn = encBlock b kt len psn ∧ decBlock b kt' len psn = decBlock b kt len psn) ∧
  (∀ (kt : List Word), (∀ i < 4, slotKey kt 1 i = ktEntry kt 0) ∧
    slotKey kt 2 0 = ktEntry kt 0 ∧ slotKey kt 2 2 = ktEntry kt 0 ∧ slotKey kt 2 1 = ktEntry kt 1 ∧ slotKey kt 2 3 = ktEntry kt 1 ∧
    slotKey kt 3 0 = ktEntry kt 0 ∧ slotKey kt 3 3 = ktEntry kt 0 ∧ slotKey kt 3 1 = ktEntry kt 1 ∧ slotKey kt 3 2 = ktEntry kt 2 ∧
    ∀ len, 4 ≤ len → ∀ i < 4, slotKey kt len i = ktEntry kt i)

/-- R156: EncBlock and DecBlock undo each other, and each is a bijection of the blocks. -/
def Obligations.BlockCipherRoundTrip : Prop :=
  ∀ (kt : List Word) (len psn : Nat), 1 ≤ len →
    (∀ b, (encBlock b kt len psn).bind (fun c => decBlock c kt len psn) = some b) ∧
    (∀ c, (decBlock c kt len psn).bind (fun b => encBlock b kt len psn) = some c) ∧
    (∀ c, ∃! b, encBlock b kt len psn = some c) ∧ ∀ b, ∃! c, decBlock c kt len psn = some b

/-- R158: the functions have a value exactly for a table that is not empty. -/
def Obligations.EmptyTableGivesNoBlock : Prop :=
  ∀ (b : Word) (kt : List Word) (len psn : Nat),
    (encBlock b kt len psn = none ↔ len = 0) ∧ (decBlock b kt len psn = none ↔ len = 0)

/-- R159: ENC applies the four forward transforms of its position, slot 0 first, to B and writes nothing else; with no key,
EMPTY_KT; with a table of zeros it is a rotation to the right by 2; its word, and the words that are turned away before it. -/
def Obligations.EncEnciphersTheBlock : Prop :=
  ∀ s : State, s.fcode = .noFault →
    decode 0x02 = .ok .enc ∧
    (∀ (d : Word) (es : List HostEvent), s.inbox = .write 0x00 d :: es → bitField d 7 0 = 0x02 → bitField d 63 8 ≠ 0 →
      step s = .next { s with inbox := es, fcode := .illegalCmd, finfo := d }) ∧
    (s.klen = 0 → exec .enc s = .next { s with fcode := .emptyKt, finfo := 0x02 }) ∧
    (1 ≤ s.klen →
      let T : Nat → Transform := fun i => Transform.ofIdx ((s.psn.toNat + i) % 4)
      let K : Nat → Word := fun i => ktEntry s.kt (i % s.klen)
      exec .enc s =
        .next { s with b := fwd (T 3) (fwd (T 2) (fwd (T 1) (fwd (T 0) s.b (K 0)) (K 1)) (K 2)) (K 3) } ∧
      ((∀ j < s.klen, ktEntry s.kt j = 0) → exec .enc s = .next { s with b := rotr64 s.b 2 }))

/-- R160: DEC applies the four inverse transforms of its position, slot 3 first, to B and writes nothing else; with no key,
EMPTY_KT; with a table of zeros it is a rotation to the left by 2; its word, and the words that are turned away before it. -/
def Obligations.DecDeciphersTheBlock : Prop :=
  ∀ s : State, s.fcode = .noFault →
    decode 0x03 = .ok .dec ∧
    (∀ (d : Word) (es : List HostEvent), s.inbox = .write 0x00 d :: es → bitField d 7 0 = 0x03 → bitField d 63 8 ≠ 0 →
      step s = .next { s with inbox := es, fcode := .illegalCmd, finfo := d }) ∧
    (s.klen = 0 → exec .dec s = .next { s with fcode := .emptyKt, finfo := 0x03 }) ∧
    (1 ≤ s.klen →
      let T : Nat → Transform := fun i => Transform.ofIdx ((s.psn.toNat + i) % 4)
      let K : Nat → Word := fun i => ktEntry s.kt (i % s.klen)
      exec .dec s =
        .next { s with b := inv (T 0) (inv (T 1) (inv (T 2) (inv (T 3) s.b (K 3)) (K 2)) (K 1)) (K 0) } ∧
      ((∀ j < s.klen, ktEntry s.kt j = 0) → exec .dec s = .next { s with b := rotl64 s.b 2 }))

/-- R162: ENC leaves the state of four XFWD, DEC that of four XINV, written to CMD in this order. -/
def Obligations.EncIsFourForwardTransforms : Prop :=
  ∀ s : State, CipherReady s →
    let r := s.psn.toNat % 4
    let xfwd : Nat → HostEvent := fun i => .write 0x00 (BitVec.ofNat 64 (0x04 + 0x100 * ((r + i) % 4) + 0x400 * i))
    let xinv : Nat → HostEvent := fun i => .write 0x00 (BitVec.ofNat 64 (0x05 + 0x100 * ((r + i) % 4) + 0x400 * i))
    serveAll [.write 0x00 0x02] s = serveAll [xfwd 0, xfwd 1, xfwd 2, xfwd 3] s ∧
    serveAll [.write 0x00 0x03] s = serveAll [xinv 3, xinv 2, xinv 1, xinv 0] s

/-- R163: ENC then DEC, and DEC then ENC, restore the engine; and a block enciphered by one engine is deciphered by any engine
whose four slot keys and position modulo 4 are the same. -/
def Obligations.EncThenDecRestoresTheBlock : Prop :=
  ∀ s : State, CipherReady s →
    serveAll [.write 0x00 0x02, .write 0x00 0x03] s = .next s ∧
    serveAll [.write 0x00 0x03, .write 0x00 0x02] s = .next s ∧
    ∀ t u : State, CipherReady u → u.psn.toNat % 4 = s.psn.toNat % 4 →
      (∀ i < 4, slotKey u.kt u.klen i = slotKey s.kt s.klen i) → exec .enc s = .next t →
      exec .dec { u with b := t.b } = .next { u with b := s.b }

/-! ### Control commands, faults, reset (43_control_commands.md, 60_exceptions.md, 70_reset_and_hazards.md) -/

/-- R180: NOP changes nothing, faulted or not; with any bit of d[63:8] set the word is no NOP. -/
def Obligations.NopChangesNothing : Prop :=
  ∀ s : State, exec .nop s = .next s ∧
    ∀ (d : Word) (es : List HostEvent), s.inbox = .write 0x00 d :: es →
      (d = 0 → step s = .next { s with inbox := es }) ∧
      (s.fcode = .noFault → bitField d 7 0 = 0 → bitField d 63 8 ≠ 0 →
        step s = .next { s with inbox := es, fcode := .illegalCmd, finfo := d })

/-- R34 and R260: HardReset and the RESET command, in every state, leave every register at its reset value and STATUS reading
65536 * KT_CAP. What the host has sent and read is not the engine's. -/
def Obligations.ResetLeavesEveryRegisterZero : Prop :=
  ∀ (s : State) (es : List HostEvent),
    let zero : State :=
      { cfg := s.cfg, p := 0, q := 0, s := 0, psn := 0, b := 0, kt := List.replicate s.cfg.ktCap 0, klen := 0,
        fcode := .noFault, finfo := 0, inbox := s.inbox, outbox := s.outbox }
    exec .reset s = .next zero ∧
    (s.inbox = .write 0x00 0x07 :: es → step s = .next { zero with inbox := es }) ∧
    (s.inbox = .hardReset :: es → step s = .next { zero with inbox := es }) ∧
    statusWord zero = BitVec.ofNat 64 (65536 * s.cfg.ktCap) ∧ (∀ j, ktEntry zero.kt j = 0) ∧
    statusWord State.reset = 0x0000000000080000

/-- R222: which command words are illegal, and what the engine then does. -/
def Obligations.IllegalWordRaisesIllegalCmd : Prop :=
  ∀ (s : State) (d : Word) (es : List HostEvent), s.fcode = .noFault → s.inbox = .write 0x00 d :: es →
    let op := bitField d 7 0
    let illegal : Prop := bitField d 63 16 ≠ 0 ∨ op ∉ [0x00, 0x01, 0x02, 0x03, 0x04, 0x05, 0x07] ∨
      op ∈ [0x00, 0x02, 0x03, 0x07] ∧ bitField d 15 8 ≠ 0 ∨ op ∈ [0x04, 0x05] ∧ bitField d 15 12 ≠ 0
    (illegal → step s = .next { s with inbox := es, fcode := .illegalCmd, finfo := d }) ∧
    (¬illegal → ∃ t, step s = .next t ∧ t.fcode ≠ .illegalCmd)

/-- R223: ENC, DEC, XFWD and XINV with KLEN = 0; with a key they never raise it; and KLEN becomes 0 by a reset or by KGEN 0
alone. -/
def Obligations.CipherCommandsNeedAKey : Prop :=
  (∀ (s : State) (d : Word) (es : List HostEvent), s.fcode = .noFault → s.inbox = .write 0x00 d :: es →
    d = 0x02 ∨ d = 0x03 ∨ d &&& 0xFFFFFFFFFFFFF0FF = 0x04 ∨ d &&& 0xFFFFFFFFFFFFF0FF = 0x05 →
    (s.klen = 0 → step s = .next { s with inbox := es, fcode := .emptyKt, finfo := d }) ∧
    (1 ≤ s.klen → ∃ v, step s = .next { s with inbox := es, b := v })) ∧
  (∀ s t : State, step s = .next t → s.fcode = .noFault → t.fcode = .emptyKt → s.klen = 0) ∧
  ∀ s t : State, step s = .next t → 1 ≤ s.klen → t.klen = 0 →
    ∃ e es, s.inbox = e :: es ∧ (resets e = true ∨ e = .write 0x00 0x01)

/-- R224: a KGEN word with n > KT_CAP. -/
def Obligations.LongKgenRaisesLenRange : Prop :=
  ∀ (s : State) (d : Word) (es : List HostEvent), s.fcode = .noFault → s.inbox = .write 0x00 d :: es →
    d &&& 0xFFFFFFFFFFFF00FF = 0x01 → s.cfg.ktCap < bitField d 15 8 →
    step s = .next { s with inbox := es, fcode := .lenRange, finfo := d }

/-- R231: at most one fault, the first condition of the list that holds. -/
def Obligations.FirstConditionChoosesTheFault : Prop :=
  ∀ s t : State, step s = .next t →
    (s.fcode ≠ .noFault → t.fcode = s.fcode ∨ t.fcode = .noFault) ∧
    (s.fcode = .noFault → ∀ (a : Addr) (es : List HostEvent),
      let unmapped : Prop := a = 0x03 ∨ 0x09 ≤ a.toNat ∧ a.toNat ≤ 0x0F ∨ 0x10 + s.cfg.ktCap ≤ a.toNat
      (s.inbox = .read a :: es →
        t.fcode = if unmapped then .badAddr else if a = 0x00 then .badAccess else .noFault) ∧
      ∀ d : Word, s.inbox = .write a d :: es →
        t.fcode =
          if unmapped then .badAddr
          else if a ≠ 0x00 ∧ ¬(0x04 ≤ a.toNat ∧ a.toNat ≤ 0x08) then .badAccess
          else if a ≠ 0x00 then .noFault
          else if ∀ r ∈ opcodeRows, d &&& r.mask ≠ r.pattern then .illegalCmd
          else if bitField d 7 0 = 0x01 ∧ s.cfg.ktCap < bitField d 15 8 then .lenRange
          else if bitField d 7 0 ∈ [0x02, 0x03, 0x04, 0x05] ∧ s.klen = 0 then .emptyKt
          else .noFault)

/-- R232: a transaction that raises a fault records its code and its information (R228: the command word, or the address and the
direction) and changes nothing else; a read that faults returns 0, a write returns nothing, and HardReset raises none. -/
def Obligations.FaultEntryRecordsAndChangesNothingElse : Prop :=
  ∀ (s t : State) (e : HostEvent) (es : List HostEvent), s.fcode = .noFault → s.inbox = e :: es → step s = .next t →
    t.fcode ≠ .noFault →
    (match e with
      | .read a => t.fcode.code ∈ [4, 5] ∧
        t = { s with inbox := es, fcode := t.fcode, finfo := BitVec.ofNat 64 a.toNat, outbox := s.outbox ++ [0] }
      | .write a d => (t.fcode.code ∈ [1, 2, 3] ↔ a = 0x00) ∧
        t = { s with inbox := es, fcode := t.fcode, finfo := if a = 0x00 then d else BitVec.ofNat 64 (0x100 + a.toNat) }
      | .hardReset => False) ∧
    bitField (statusWord t) 0 0 = 1 ∧ bitField (statusWord t) 7 4 = t.fcode.code

/-- R233: what each transaction does while faulted. -/
def Obligations.FaultedEngineIgnoresAllButReset : Prop :=
  ∀ (s : State) (es : List HostEvent), s.fcode ≠ .noFault →
    (∀ a r v, regAt s.cfg a = some r → regValue r s = some v → s.inbox = .read a :: es →
      step s = .next { s with inbox := es, outbox := s.outbox ++ [v] }) ∧
    (∀ a : Addr, a = 0x00 ∨ a = 0x03 ∨ 0x09 ≤ a.toNat ∧ a.toNat ≤ 0x0F ∨ 0x10 + s.cfg.ktCap ≤ a.toNat →
      s.inbox = .read a :: es → step s = .next { s with inbox := es, outbox := s.outbox ++ [0] }) ∧
    (∀ (a : Addr) (d : Word), a ≠ 0x00 → s.inbox = .write a d :: es → step s = .next { s with inbox := es }) ∧
    (s.inbox = .write 0x00 0x0000000000000007 :: es →
      step s = .next { State.resetOf s.cfg with inbox := es, outbox := s.outbox }) ∧
    ∀ d : Word, d ≠ 0x0000000000000007 → s.inbox = .write 0x00 d :: es → step s = .next { s with inbox := es }

/-- R235: a reset is the only way out of the faulted state and erases all state; while faulted nothing is raised over the first
fault. -/
def Obligations.OnlyResetLeavesTheFaultedState : Prop :=
  ∀ s t : State, s.fcode ≠ .noFault → step s = .next t →
    (t.fcode ≠ .noFault → t.fcode = s.fcode ∧ t.finfo = s.finfo) ∧
    (t.fcode = .noFault → ∃ e es, s.inbox = e :: es ∧ resets e = true ∧
      t = { State.resetOf s.cfg with inbox := es, outbox := s.outbox })

/-- R221, R228: what FINFO holds for each code; every step keeps it, from every state that has it. -/
def Obligations.FaultRecordKeptByEveryStep : Prop :=
  ∀ s t, FaultRecord s → step s = .next t → FaultRecord t

/-- R233, R269: through any list of events without a reset, a faulted engine keeps every register and its first fault. -/
def Obligations.FaultIsStickyUntilReset : Prop :=
  ∀ (es : List HostEvent) (s : State), s.fcode ≠ .noFault → (∀ e ∈ es, resets e = false) →
    ∃ t, serveAll es s = .next t ∧ SameEngine s t

/-- R269: "one check at the end of a batch covers the whole batch": no fault at the end means no fault after any part of it. -/
def Obligations.OneCheckCoversTheBatch : Prop :=
  ∀ (es : List HostEvent) (s t : State), (∀ e ∈ es, resets e = false) → serveAll es s = .next t → ResultsTrusted t →
    ∀ k, ∃ u, serveAll (es.take k) s = .next u ∧ ResultsTrusted u

/-- R264, R266: the boot sequence after reset, whatever the seeds, leaves an engine ready to encipher, with the source's table,
and STATUS reads as the sequence expects. -/
def Obligations.BootLeavesAReadyEngine : Prop :=
  ∀ (cfg : Config) (p q s n psn : Nat), cfg.Legal → 1 ≤ n → n ≤ cfg.ktCap →
    ∃ t, serveAll (bootEvents p q s n psn) (State.resetOf cfg) = .next t ∧ CipherReady t ∧ t.klen = n ∧
      t.psn = BitVec.ofNat 64 psn ∧
      t.outbox = [BitVec.ofNat 64 (65536 * cfg.ktCap), BitVec.ofNat 64 (2 + 256 * n + 65536 * cfg.ktCap)] ∧
      (t.kt.take n).map BitVec.toNat = generateNat p q s n

/-! ### Host scripts and framing (30_encoding.md, 45_host_framing.md) -/

/-- R96: what the pseudo-commands do on a ready engine. -/
def Obligations.PseudoCommandsDoWhatTheyAbbreviate : Prop :=
  ∀ s : State,
    (∀ (p q sd : Word) (n : Nat),
      runScript [.generate p q sd n] s = runScript [.wr .p p, .wr .q q, .wr .s sd, .cmd (.kgen n)] s ∧
      runScript [.generate p q sd n] s = runScript [.seed p q sd, .cmd (.kgen n)] s) ∧
    (CipherReady s → ∀ v c : Word,
      (encBlock v s.kt s.klen s.psn.toNat = some c →
        runScript [.encblk v] s = .next { s with b := c, outbox := s.outbox ++ [c] }) ∧
      (decBlock v s.kt s.klen s.psn.toNat = some c →
        runScript [.decblk v] s = .next { s with b := c, outbox := s.outbox ++ [c] })) ∧
    (StateInv s → runScript [.rdkt] s =
      .next { s with outbox := s.outbox ++ statusWord s :: (List.range s.klen).map (ktEntry s.kt) })

/-- R191: the byte 0 occurs only as the encoding of U+0000, the empty text has the empty encoding, and no two texts share one. -/
def Obligations.EncodingOfTextIsFaithful : Prop :=
  (∀ c : Char, (0 : Byte) ∈ utf8OfScalar c ↔ c = Char.ofNat 0) ∧ utf8Encode [] = [] ∧
    ∀ t u : Text, utf8Encode t = utf8Encode u → t = u

/-- R192, R194: the bytes of the blocks of a byte string are the string and the zeros that pad its last block. -/
def Obligations.BlocksCarryTheBytesAndPadding : Prop :=
  ∀ y : List Byte,
    blocksToBytes (bytesToBlocks y) = y ++ List.replicate (8 * ((y.length + 7) / 8) - y.length) 0 ∧
    (bytesToBlocks y).length = (y.length + 7) / 8

/-- R198: the framer's round trip, and exactly when it loses something. -/
def Obligations.FramerRoundTrip : Prop :=
  ∀ (dec : Utf8Decoder) (t : Text),
    blocksToText dec (textToBlocks t) = (t.reverse.dropWhile (fun c => c == Char.ofNat 0)).reverse ∧
    (blocksToText dec (textToBlocks t) = t ↔ t.getLast? ≠ some (Char.ofNat 0))

/-- R199, R200, R201: the position is below 16, the draw decides it for the empty string alone, and padding does not change
it. -/
def Obligations.PaddingKeepsThePosition : Prop :=
  ∀ (draw : Fin 16) (y : List Byte),
    selectInitialPosition draw y < 16 ∧ selectInitialPosition draw [] = draw.val ∧
    (y ≠ [] → ∀ (draw' : Fin 16) (z : Nat),
      selectInitialPosition draw' (y ++ List.replicate z 0) = selectInitialPosition draw y ∧
      selectInitialPosition draw' (blocksToBytes (bytesToBlocks y)) = selectInitialPosition draw y ∧
      selectInitialPosition draw y = (y.map fun x => bitField (x.setWidth 64) 3 0).sum % 16)

/-- R202, R164, R157: enciphering a message on a ready engine gives the cipher block of each of its blocks, each on its own, in
order, and leaves every register but PSN and B as it was. -/
def Obligations.MessageEnciphersEachBlock : Prop :=
  ∀ (draw : Fin 16) (t : Text) (s : State), CipherReady s →
    let psn := selectInitialPosition draw (utf8Encode t)
    ∃ (cipher : List Word) (s' : State), encryptMessage draw t s = some (cipher, psn, s') ∧
      cipher.map some = (textToBlocks t).map (fun b => encBlock b s.kt s.klen psn) ∧
      SameEngine { s with psn := BitVec.ofNat 64 psn, b := s'.b } s' ∧ s'.inbox = s.inbox

/-- R204: what was enciphered under any position, deciphered on any ready engine with the same slot keys, is the text without its
trailing U+0000 characters; exactly the text when it does not end in one. `EncryptMessage` is this encipherment under the
position it selects. -/
def Obligations.MessageRoundTrip : Prop :=
  ∀ (dec : Utf8Decoder) (t : Text) (psn : Nat) (s u : State), CipherReady s → CipherReady u →
    (∀ i < 4, slotKey u.kt u.klen i = slotKey s.kt s.klen i) →
    ∃ s' u' : State, serveAll (messageEvents .enc psn (textToBlocks t)) s = .next s' ∧
      decryptMessage dec (wordsRead s s') psn u = some ((t.reverse.dropWhile (fun c => c == Char.ofNat 0)).reverse, u') ∧
      (t.getLast? ≠ some (Char.ofNat 0) → decryptMessage dec (wordsRead s s') psn u = some (t, u')) ∧
      ∀ draw : Fin 16, psn = selectInitialPosition draw (utf8Encode t) →
        encryptMessage draw t s = some (wordsRead s s', psn, s')

/-- R19, R20: one transaction takes the nine fields of R20 and the event to the nine fields and the words read: engines alike in
these answer alike, whatever waits behind the event or was read before it, and KT_CAP is as before. A HostRead returns one word,
the other events none. The fields that keep the event and the words are the model's (log entries 1, 2, 4). -/
def Obligations.TransactionDependsOnTheEngineAlone : Prop :=
  ∀ (s t : State) (e : HostEvent) (es fs : List HostEvent), SameEngine s t → s.inbox = e :: es → t.inbox = e :: fs →
    ∃ (m : Engine) (out : List Word),
      step s = .next { s with toEngine := m, inbox := es, outbox := s.outbox ++ out } ∧
      step t = .next { t with toEngine := m, inbox := fs, outbox := t.outbox ++ out } ∧
      out.length = (match e with
        | .write _ _ => 0
        | .read _ => 1
        | .hardReset => 0)
end

