-- ==== Sys2Proof/Laws/Decode.lean ====
section
/-! SUPPORT. What the decoder and the encoder can answer, by the fields of the word. -/

namespace Sys2Proof

theorem bitField_lt (d : Word) (hi lo : Nat) : bitField d hi lo < 2 ^ (hi + 1 - lo) := Nat.mod_lt _ (by positivity)

@[simp] theorem Transform.ofIdx_idx (t : Transform) : Transform.ofIdx t.idx = t := by cases t <;> rfl

theorem Transform.idx_ofIdx (n : Nat) : (Transform.ofIdx n).idx = n % 4 := by
  have h : n % 4 < 4 := Nat.mod_lt _ (by decide)
  unfold Transform.ofIdx
  generalize n % 4 = m at h
  interval_cases m <;> rfl

theorem Transform.idx_lt (t : Transform) : t.idx < 4 := by cases t <;> decide

/-- A transform's index is taken modulo 4 (R130, R154). -/
theorem Transform.ofIdx_mod (n : Nat) : Transform.ofIdx (n % 4) = Transform.ofIdx n := by simp [Transform.ofIdx]

/-- The word is the sum of its opcode and its upper bytes. -/
theorem word_fields (d : Word) :
    d.toNat = bitField d 7 0 + 0x100 * bitField d 15 8 + 0x10000 * bitField d 63 16 := by
  have := d.isLt
  simp only [bitField, natField]; omega

/-- Everything the decoder can accept: the fields of the word, for each command. -/
theorem decode_ok {d : Word} {i : Instr} (h : decode d = .ok i) :
    bitField d 63 16 = 0 ∧
    match i with
    | .nop => bitField d 7 0 = 0x00 ∧ bitField d 15 8 = 0
    | .kgen n => bitField d 7 0 = 0x01 ∧ bitField d 15 8 = n
    | .enc => bitField d 7 0 = 0x02 ∧ bitField d 15 8 = 0
    | .dec => bitField d 7 0 = 0x03 ∧ bitField d 15 8 = 0
    | .xfwd t j => bitField d 7 0 = 0x04 ∧ bitField d 15 12 = 0 ∧ bitField d 9 8 = t.idx ∧ bitField d 11 10 = j
    | .xinv t j => bitField d 7 0 = 0x05 ∧ bitField d 15 12 = 0 ∧ bitField d 9 8 = t.idx ∧ bitField d 11 10 = j
    | .reset => bitField d 7 0 = 0x07 ∧ bitField d 15 8 = 0 := by
  have ht : bitField d 9 8 = (Transform.ofIdx (bitField d 9 8)).idx := by
    rw [Transform.idx_ofIdx]; exact (Nat.mod_eq_of_lt (bitField_lt d 9 8)).symm
  unfold decode at h
  split at h
  case isFalse => cases h
  case isTrue h0 =>
    refine ⟨h0, ?_⟩
    split at h <;> rename_i hop <;>
      first
      | (simp only [decodeZ] at h; split at h <;> cases h; exact ⟨hop, by assumption⟩)
      | (simp only [decodeX] at h; split at h <;> cases h; exact ⟨hop, by assumption, ht, rfl⟩)
      | (cases h; first | exact ⟨hop, rfl⟩ | skip)

end Sys2Proof
end

