-- ==== Sys2Proof/Laws/Framing.lean ====
section
/-! SUPPORT. A decoder that has the three properties R196 requires, so that the parameter `Utf8Decoder` is not empty: it drops
exactly the bytes at which no encoding begins. -/

namespace Sys2Proof.Machine

/-- The scalar value whose encoding could begin a byte string, by its first byte. -/
def headCandidate (y : List Byte) : Nat :=
  let at' (j : Nat) : Nat := (y.getD j 0).toNat
  if at' 0 ≤ 0x7F then at' 0
  else if at' 0 ≤ 0xDF then (at' 0 - 0xC0) * 64 + (at' 1 - 0x80)
  else if at' 0 ≤ 0xEF then (at' 0 - 0xE0) * 4096 + (at' 1 - 0x80) * 64 + (at' 2 - 0x80)
  else (at' 0 - 0xF0) * 262144 + (at' 1 - 0x80) * 4096 + (at' 2 - 0x80) * 64 + (at' 3 - 0x80)

/-- The scalar value whose encoding begins a byte string, if one does. -/
def headScalar (y : List Byte) : Option Char :=
  let c := Char.ofNat (headCandidate y)
  if utf8OfScalar c = y.take (utf8OfScalar c).length then some c else none

/-- At most `k` characters or dropped bytes of a byte string. -/
def dropUndecodableFrom : Nat → List Byte → Text
  | 0, _ => []
  | _ + 1, [] => []
  | k + 1, b :: bs =>
    match headScalar (b :: bs) with
    | some c => c :: dropUndecodableFrom k ((b :: bs).drop (utf8OfScalar c).length)
    | none => dropUndecodableFrom k bs

theorem byteOf_toNat {n : Nat} (h : n < 256) : (byteOf n).toNat = n := by simp [byteOf]; omega

/-- A scalar value is below 0x110000. -/
theorem scalar_lt (c : Char) : c.toNat < 0x110000 := by
  rcases c.valid with h | ⟨_, h⟩ <;> simp only [Char.toNat] <;> omega

theorem utf8OfScalar_length_pos (c : Char) : 1 ≤ (utf8OfScalar c).length := by
  unfold utf8OfScalar; simp only; split_ifs <;> simp

theorem headCandidate_utf8 (c : Char) (rest : List Byte) : headCandidate (utf8OfScalar c ++ rest) = c.toNat := by
  have hc := scalar_lt c
  unfold utf8OfScalar headCandidate
  simp only [natField]
  split_ifs <;> simp_all [byteOf] <;> omega

theorem headScalar_utf8 (c : Char) (rest : List Byte) : headScalar (utf8OfScalar c ++ rest) = some c := by
  simp [headScalar, headCandidate_utf8]

theorem dropUndecodableFrom_exact (t : Text) (k : Nat) (h : (utf8Encode t).length ≤ k) :
    dropUndecodableFrom k (utf8Encode t) = t := by
  induction t generalizing k with
  | nil => cases k <;> rfl
  | cons c t ih =>
    have hpos := utf8OfScalar_length_pos c
    have he : utf8Encode (c :: t) = utf8OfScalar c ++ utf8Encode t := by simp [utf8Encode]
    rw [he] at h ⊢
    obtain ⟨b, bs, hb⟩ : ∃ b bs, utf8OfScalar c = b :: bs := by
      cases hu : utf8OfScalar c with
      | nil => simp [hu] at hpos
      | cons b bs => exact ⟨b, bs, rfl⟩
    have hs := headScalar_utf8 c (utf8Encode t)
    rw [List.length_append] at h
    cases k with
    | zero => omega
    | succ k =>
      rw [hb, List.cons_append] at hs ⊢
      simp only [dropUndecodableFrom, hs]
      rw [← List.cons_append, ← hb, List.drop_left, ih k (by omega)]

theorem EncodedWithin.cons_byte {t : Text} {y : List Byte} (b : Byte) (h : EncodedWithin t y) :
    EncodedWithin t (b :: y) := by
  cases h with
  | nil => exact .nil _
  | cons c t gap rest h => exact .cons c t (b :: gap) rest h

theorem dropUndecodableFrom_within (k : Nat) (y : List Byte) : EncodedWithin (dropUndecodableFrom k y) y := by
  induction k generalizing y with
  | zero => exact .nil _
  | succ k ih =>
    cases y with
    | nil => exact .nil _
    | cons b bs =>
      simp only [dropUndecodableFrom]
      split
      case h_1 c hc =>
        unfold headScalar at hc
        simp only at hc
        split at hc
        case isFalse => cases hc
        case isTrue heq =>
          cases hc
          have hy := List.take_append_drop (utf8OfScalar (Char.ofNat (headCandidate (b :: bs)))).length (b :: bs)
          rw [← heq] at hy
          have := EncodedWithin.cons (Char.ofNat (headCandidate (b :: bs))) _ [] _
            (ih ((b :: bs).drop (utf8OfScalar (Char.ofNat (headCandidate (b :: bs)))).length))
          rwa [List.nil_append, hy] at this
      case h_2 => exact .cons_byte b (ih bs)

/-- The decoder that drops exactly the bytes at which no encoding begins (95_test_vectors.md section 6). -/
def dropUndecodable : Utf8Decoder where
  decode y := dropUndecodableFrom y.length y
  exact_on_valid t := dropUndecodableFrom_exact t _ le_rfl
  only_from_input y := dropUndecodableFrom_within _ y

end Sys2Proof.Machine
end

