-- ==== Sys2Proof/Laws/State.lean ====
section
/-! SUPPORT. What reset and each update of Machine/Ops.lean leave in each field of State: one lemma for each, so that no later
proof unfolds a record update. -/

namespace Sys2Proof.Machine

section
variable (n : Nat)
@[simp] theorem Engine.reset_p : (Engine.reset n).p = 0 := rfl
@[simp] theorem Engine.reset_q : (Engine.reset n).q = 0 := rfl
@[simp] theorem Engine.reset_s : (Engine.reset n).s = 0 := rfl
@[simp] theorem Engine.reset_psn : (Engine.reset n).psn = 0 := rfl
@[simp] theorem Engine.reset_b : (Engine.reset n).b = 0 := rfl
@[simp] theorem Engine.reset_kt : (Engine.reset n).kt = List.replicate n 0 := rfl
@[simp] theorem Engine.reset_klen : (Engine.reset n).klen = 0 := rfl
@[simp] theorem Engine.reset_fcode : (Engine.reset n).fcode = .noFault := rfl
@[simp] theorem Engine.reset_finfo : (Engine.reset n).finfo = 0 := rfl
end

section
variable (cfg : Config)
@[simp] theorem State.resetOf_toEngine : (State.resetOf cfg).toEngine = Engine.reset cfg.ktCap := rfl
@[simp] theorem State.resetOf_cfg : (State.resetOf cfg).cfg = cfg := rfl
@[simp] theorem State.resetOf_inbox : (State.resetOf cfg).inbox = [] := rfl
@[simp] theorem State.resetOf_outbox : (State.resetOf cfg).outbox = [] := rfl
end

section
variable (d : Word) (x : State)
@[simp] theorem setP_cfg : (setP d x).cfg = x.cfg := rfl
@[simp] theorem setP_p : (setP d x).p = d := rfl
@[simp] theorem setP_q : (setP d x).q = x.q := rfl
@[simp] theorem setP_s : (setP d x).s = x.s := rfl
@[simp] theorem setP_psn : (setP d x).psn = x.psn := rfl
@[simp] theorem setP_b : (setP d x).b = x.b := rfl
@[simp] theorem setP_kt : (setP d x).kt = x.kt := rfl
@[simp] theorem setP_klen : (setP d x).klen = x.klen := rfl
@[simp] theorem setP_fcode : (setP d x).fcode = x.fcode := rfl
@[simp] theorem setP_finfo : (setP d x).finfo = x.finfo := rfl
@[simp] theorem setP_inbox : (setP d x).inbox = x.inbox := rfl
@[simp] theorem setP_outbox : (setP d x).outbox = x.outbox := rfl
end

section
variable (d : Word) (x : State)
@[simp] theorem setQ_cfg : (setQ d x).cfg = x.cfg := rfl
@[simp] theorem setQ_p : (setQ d x).p = x.p := rfl
@[simp] theorem setQ_q : (setQ d x).q = d := rfl
@[simp] theorem setQ_s : (setQ d x).s = x.s := rfl
@[simp] theorem setQ_psn : (setQ d x).psn = x.psn := rfl
@[simp] theorem setQ_b : (setQ d x).b = x.b := rfl
@[simp] theorem setQ_kt : (setQ d x).kt = x.kt := rfl
@[simp] theorem setQ_klen : (setQ d x).klen = x.klen := rfl
@[simp] theorem setQ_fcode : (setQ d x).fcode = x.fcode := rfl
@[simp] theorem setQ_finfo : (setQ d x).finfo = x.finfo := rfl
@[simp] theorem setQ_inbox : (setQ d x).inbox = x.inbox := rfl
@[simp] theorem setQ_outbox : (setQ d x).outbox = x.outbox := rfl
end

section
variable (d : Word) (x : State)
@[simp] theorem setS_cfg : (setS d x).cfg = x.cfg := rfl
@[simp] theorem setS_p : (setS d x).p = x.p := rfl
@[simp] theorem setS_q : (setS d x).q = x.q := rfl
@[simp] theorem setS_s : (setS d x).s = d := rfl
@[simp] theorem setS_psn : (setS d x).psn = x.psn := rfl
@[simp] theorem setS_b : (setS d x).b = x.b := rfl
@[simp] theorem setS_kt : (setS d x).kt = x.kt := rfl
@[simp] theorem setS_klen : (setS d x).klen = x.klen := rfl
@[simp] theorem setS_fcode : (setS d x).fcode = x.fcode := rfl
@[simp] theorem setS_finfo : (setS d x).finfo = x.finfo := rfl
@[simp] theorem setS_inbox : (setS d x).inbox = x.inbox := rfl
@[simp] theorem setS_outbox : (setS d x).outbox = x.outbox := rfl
end

section
variable (d : Word) (x : State)
@[simp] theorem setPsn_cfg : (setPsn d x).cfg = x.cfg := rfl
@[simp] theorem setPsn_p : (setPsn d x).p = x.p := rfl
@[simp] theorem setPsn_q : (setPsn d x).q = x.q := rfl
@[simp] theorem setPsn_s : (setPsn d x).s = x.s := rfl
@[simp] theorem setPsn_psn : (setPsn d x).psn = d := rfl
@[simp] theorem setPsn_b : (setPsn d x).b = x.b := rfl
@[simp] theorem setPsn_kt : (setPsn d x).kt = x.kt := rfl
@[simp] theorem setPsn_klen : (setPsn d x).klen = x.klen := rfl
@[simp] theorem setPsn_fcode : (setPsn d x).fcode = x.fcode := rfl
@[simp] theorem setPsn_finfo : (setPsn d x).finfo = x.finfo := rfl
@[simp] theorem setPsn_inbox : (setPsn d x).inbox = x.inbox := rfl
@[simp] theorem setPsn_outbox : (setPsn d x).outbox = x.outbox := rfl
end

section
variable (d : Word) (x : State)
@[simp] theorem setB_cfg : (setB d x).cfg = x.cfg := rfl
@[simp] theorem setB_p : (setB d x).p = x.p := rfl
@[simp] theorem setB_q : (setB d x).q = x.q := rfl
@[simp] theorem setB_s : (setB d x).s = x.s := rfl
@[simp] theorem setB_psn : (setB d x).psn = x.psn := rfl
@[simp] theorem setB_b : (setB d x).b = d := rfl
@[simp] theorem setB_kt : (setB d x).kt = x.kt := rfl
@[simp] theorem setB_klen : (setB d x).klen = x.klen := rfl
@[simp] theorem setB_fcode : (setB d x).fcode = x.fcode := rfl
@[simp] theorem setB_finfo : (setB d x).finfo = x.finfo := rfl
@[simp] theorem setB_inbox : (setB d x).inbox = x.inbox := rfl
@[simp] theorem setB_outbox : (setB d x).outbox = x.outbox := rfl
end

section
variable (keys : List Word) (x : State)
@[simp] theorem setTable_cfg : (setTable keys x).cfg = x.cfg := rfl
@[simp] theorem setTable_p : (setTable keys x).p = x.p := rfl
@[simp] theorem setTable_q : (setTable keys x).q = x.q := rfl
@[simp] theorem setTable_s : (setTable keys x).s = x.s := rfl
@[simp] theorem setTable_psn : (setTable keys x).psn = x.psn := rfl
@[simp] theorem setTable_b : (setTable keys x).b = x.b := rfl
@[simp] theorem setTable_kt : (setTable keys x).kt = keys ++ List.replicate (x.cfg.ktCap - keys.length) 0 := rfl
@[simp] theorem setTable_klen : (setTable keys x).klen = keys.length := rfl
@[simp] theorem setTable_fcode : (setTable keys x).fcode = x.fcode := rfl
@[simp] theorem setTable_finfo : (setTable keys x).finfo = x.finfo := rfl
@[simp] theorem setTable_inbox : (setTable keys x).inbox = x.inbox := rfl
@[simp] theorem setTable_outbox : (setTable keys x).outbox = x.outbox := rfl
end

section
variable (v : Word) (x : State)
@[simp] theorem reply_toEngine : (reply v x).toEngine = x.toEngine := rfl
@[simp] theorem reply_cfg : (reply v x).cfg = x.cfg := rfl
@[simp] theorem reply_p : (reply v x).p = x.p := rfl
@[simp] theorem reply_q : (reply v x).q = x.q := rfl
@[simp] theorem reply_s : (reply v x).s = x.s := rfl
@[simp] theorem reply_psn : (reply v x).psn = x.psn := rfl
@[simp] theorem reply_b : (reply v x).b = x.b := rfl
@[simp] theorem reply_kt : (reply v x).kt = x.kt := rfl
@[simp] theorem reply_klen : (reply v x).klen = x.klen := rfl
@[simp] theorem reply_fcode : (reply v x).fcode = x.fcode := rfl
@[simp] theorem reply_finfo : (reply v x).finfo = x.finfo := rfl
@[simp] theorem reply_inbox : (reply v x).inbox = x.inbox := rfl
@[simp] theorem reply_outbox : (reply v x).outbox = x.outbox ++ [v] := rfl
end

section
variable (es : List HostEvent) (x : State)
@[simp] theorem setInbox_toEngine : (setInbox es x).toEngine = x.toEngine := rfl
@[simp] theorem setInbox_cfg : (setInbox es x).cfg = x.cfg := rfl
@[simp] theorem setInbox_p : (setInbox es x).p = x.p := rfl
@[simp] theorem setInbox_q : (setInbox es x).q = x.q := rfl
@[simp] theorem setInbox_s : (setInbox es x).s = x.s := rfl
@[simp] theorem setInbox_psn : (setInbox es x).psn = x.psn := rfl
@[simp] theorem setInbox_b : (setInbox es x).b = x.b := rfl
@[simp] theorem setInbox_kt : (setInbox es x).kt = x.kt := rfl
@[simp] theorem setInbox_klen : (setInbox es x).klen = x.klen := rfl
@[simp] theorem setInbox_fcode : (setInbox es x).fcode = x.fcode := rfl
@[simp] theorem setInbox_finfo : (setInbox es x).finfo = x.finfo := rfl
@[simp] theorem setInbox_inbox : (setInbox es x).inbox = es := rfl
@[simp] theorem setInbox_outbox : (setInbox es x).outbox = x.outbox := rfl
end

section
variable (x : State)
@[simp] theorem resetEngine_toEngine : (resetEngine x).toEngine = Engine.reset x.cfg.ktCap := rfl
@[simp] theorem resetEngine_cfg : (resetEngine x).cfg = x.cfg := rfl
@[simp] theorem resetEngine_p : (resetEngine x).p = 0 := rfl
@[simp] theorem resetEngine_q : (resetEngine x).q = 0 := rfl
@[simp] theorem resetEngine_s : (resetEngine x).s = 0 := rfl
@[simp] theorem resetEngine_psn : (resetEngine x).psn = 0 := rfl
@[simp] theorem resetEngine_b : (resetEngine x).b = 0 := rfl
@[simp] theorem resetEngine_kt : (resetEngine x).kt = List.replicate x.cfg.ktCap 0 := rfl
@[simp] theorem resetEngine_klen : (resetEngine x).klen = 0 := rfl
@[simp] theorem resetEngine_fcode : (resetEngine x).fcode = .noFault := rfl
@[simp] theorem resetEngine_finfo : (resetEngine x).finfo = 0 := rfl
@[simp] theorem resetEngine_inbox : (resetEngine x).inbox = x.inbox := rfl
@[simp] theorem resetEngine_outbox : (resetEngine x).outbox = x.outbox := rfl
end

section
variable (c : FCode) (info : Word) (x : State)
@[simp] theorem raiseFault_cfg : (raiseFault c info x).cfg = x.cfg := by
  unfold raiseFault; split <;> rfl
@[simp] theorem raiseFault_p : (raiseFault c info x).p = x.p := by
  unfold raiseFault; split <;> rfl
@[simp] theorem raiseFault_q : (raiseFault c info x).q = x.q := by
  unfold raiseFault; split <;> rfl
@[simp] theorem raiseFault_s : (raiseFault c info x).s = x.s := by
  unfold raiseFault; split <;> rfl
@[simp] theorem raiseFault_psn : (raiseFault c info x).psn = x.psn := by
  unfold raiseFault; split <;> rfl
@[simp] theorem raiseFault_b : (raiseFault c info x).b = x.b := by
  unfold raiseFault; split <;> rfl
@[simp] theorem raiseFault_kt : (raiseFault c info x).kt = x.kt := by
  unfold raiseFault; split <;> rfl
@[simp] theorem raiseFault_klen : (raiseFault c info x).klen = x.klen := by
  unfold raiseFault; split <;> rfl
theorem raiseFault_fcode : (raiseFault c info x).fcode = if x.fcode = .noFault then c else x.fcode := by
  unfold raiseFault; split <;> rfl
theorem raiseFault_finfo : (raiseFault c info x).finfo = if x.fcode = .noFault then info else x.finfo := by
  unfold raiseFault; split <;> rfl
@[simp] theorem raiseFault_inbox : (raiseFault c info x).inbox = x.inbox := by
  unfold raiseFault; split <;> rfl
@[simp] theorem raiseFault_outbox : (raiseFault c info x).outbox = x.outbox := by
  unfold raiseFault; split <;> rfl
end

end Sys2Proof.Machine
end

