-- ==== Sys2Proof/Laws/Ops.lean ====
section
/-! SUPPORT. For each shared operation of Machine/Ops.lean, everything it can do. -/

namespace Sys2Proof.Machine

/-- Raising a fault: it is recorded and nothing else changes, or one is recorded already and nothing changes. -/
theorem raiseFault_cases (c : FCode) (info : Word) (s : State) :
    s.fcode = .noFault ∧ raiseFault c info s = { s with fcode := c, finfo := info } ∨
      s.fcode ≠ .noFault ∧ raiseFault c info s = s := by
  unfold raiseFault; split <;> simp_all

theorem raiseFault_of_noFault {c : FCode} {info : Word} {s : State} (h : s.fcode = .noFault) :
    raiseFault c info s = { s with fcode := c, finfo := info } := if_pos h

theorem raiseFault_of_faulted {c : FCode} {info : Word} {s : State} (h : s.fcode ≠ .noFault) :
    raiseFault c info s = s := if_neg h

theorem unlessFaulted_of_noFault {s : State} {body : Result} (h : s.fcode = .noFault) :
    unlessFaulted s body = body := if_pos h

theorem unlessFaulted_of_faulted {s : State} {body : Result} (h : s.fcode ≠ .noFault) :
    unlessFaulted s body = .next s := if_neg h

/-- A guarded transaction that answers t: the engine was not faulted and the transaction answered it, or it was faulted and t is
the state before. -/
theorem unlessFaulted_next {s t : State} {body : Result} :
    unlessFaulted s body = .next t ↔ s.fcode = .noFault ∧ body = .next t ∨ s.fcode ≠ .noFault ∧ t = s := by
  unfold unlessFaulted; split <;> simp_all [eq_comm]

@[simp] theorem andThen_next (s : State) (k : State → Result) : andThen (.next s) k = k s := rfl

/-- A sequence that answers t: the first part answered a state from which the second answered t. -/
theorem andThen_eq_next {o : Result} {k : State → Result} {t : State} :
    andThen o k = .next t ↔ ∃ u, o = .next u ∧ k u = .next t := by
  cases o <;> simp [andThen]

@[simp] theorem ktEntry_replicate_zero (n j : Nat) : ktEntry (List.replicate n 0#64) j = 0#64 := by
  simp only [ktEntry, List.getD_eq_getElem?_getD, List.getElem?_replicate]; split <;> rfl

/-- Entry j of a fresh table: the j-th key, and 0 past the last one. -/
theorem ktEntry_append_zeros (keys : List Word) (n j : Nat) :
    ktEntry (keys ++ List.replicate n 0) j = ktEntry keys j := by
  simp only [ktEntry, List.getD_eq_getElem?_getD, List.getElem?_append, List.getElem?_replicate]
  split
  · rfl
  · rw [List.getElem?_eq_none (by omega)]; split <;> rfl

theorem ktEntry_of_length_le {kt : List Word} {j : Nat} (h : kt.length ≤ j) : ktEntry kt j = 0 := by
  simp [ktEntry, List.getD_eq_getElem?_getD, h]

end Sys2Proof.Machine
end

