-- ==== Sys2Proof/Laws/Instructions.lean ====
section
/-! SUPPORT. What a command can do, once: its next state, by the case it is in. -/

namespace Sys2Proof.Machine

open Sys2Proof.Safety

@[simp] theorem generate_length (p q s : Word) (n : Nat) : (generate p q s n).length = n := by
  induction n generalizing s with
  | zero => rfl
  | succ n ih => simp [generate, ih]

/-- One slot key of an empty index range, and the block functions by whether there is a key. -/
theorem encBlock_of_pos {b : Word} {kt : List Word} {len psn : Nat} (h : len ≠ 0) :
    encBlock b kt len psn =
      some (encSlot kt len psn 3 (encSlot kt len psn 2 (encSlot kt len psn 1 (encSlot kt len psn 0 b)))) := by
  simp [encBlock, h, List.range, List.range.loop]

theorem decBlock_of_pos {c : Word} {kt : List Word} {len psn : Nat} (h : len ≠ 0) :
    decBlock c kt len psn =
      some (decSlot kt len psn 0 (decSlot kt len psn 1 (decSlot kt len psn 2 (decSlot kt len psn 3 c)))) := by
  simp [decBlock, h, List.range, List.range.loop]

@[simp] theorem encBlock_zero (b : Word) (kt : List Word) (psn : Nat) : encBlock b kt 0 psn = none := rfl

@[simp] theorem decBlock_zero (c : Word) (kt : List Word) (psn : Nat) : decBlock c kt 0 psn = none := rfl

/-- Everything a command can do, when it answers t: nothing (NOP, or any command but RESET while faulted); the reset state; a
fresh key table; a new block, where there is a key; or the one fault it can raise. -/
theorem exec_cases {i : Instr} {s t : State} (h : exec i s = .next t) :
    t = s ∧ (s.fcode ≠ .noFault ∨ i = .nop) ∨
    i = .reset ∧ t = resetEngine s ∨
    s.fcode = .noFault ∧ (∃ n, i = .kgen n ∧ n ≤ s.cfg.ktCap ∧ t = setTable (generate s.p s.q s.s n) s) ∨
    s.fcode = .noFault ∧ needsKey i = true ∧ s.klen ≠ 0 ∧ (∃ v, t = setB v s) ∨
    s.fcode = .noFault ∧ (∃ n, i = .kgen n ∧ s.cfg.ktCap < n) ∧ t = { s with fcode := .lenRange, finfo := encode i } ∨
    s.fcode = .noFault ∧ needsKey i = true ∧ s.klen = 0 ∧ t = { s with fcode := .emptyKt, finfo := encode i } := by
  cases i with
  | nop => cases h; simp
  | reset => cases h; simp
  | kgen n =>
    rcases unlessFaulted_next.1 h with ⟨h0, h⟩ | ⟨h0, rfl⟩
    · split at h <;> rename_i hn <;> cases h
      · simp [h0, hn, raiseFault_of_noFault h0]
      · exact .inr (.inr (.inl ⟨h0, n, rfl, Nat.le_of_not_gt hn, rfl⟩))
    · simp [h0]
  | enc =>
    rcases unlessFaulted_next.1 h with ⟨h0, h⟩ | ⟨h0, rfl⟩
    · by_cases hk : s.klen = 0
      · rw [hk] at h; cases h; simp [h0, hk, needsKey, raiseFault_of_noFault h0]
      · rw [encBlock_of_pos hk] at h; cases h; exact .inr (.inr (.inr (.inl ⟨h0, rfl, hk, _, rfl⟩)))
    · simp [h0]
  | dec =>
    rcases unlessFaulted_next.1 h with ⟨h0, h⟩ | ⟨h0, rfl⟩
    · by_cases hk : s.klen = 0
      · rw [hk] at h; cases h; simp [h0, hk, needsKey, raiseFault_of_noFault h0]
      · rw [decBlock_of_pos hk] at h; cases h; exact .inr (.inr (.inr (.inl ⟨h0, rfl, hk, _, rfl⟩)))
    · simp [h0]
  | xfwd t j =>
    rcases unlessFaulted_next.1 h with ⟨h0, h⟩ | ⟨h0, rfl⟩
    · split at h <;> rename_i hk <;> cases h
      · simp [h0, hk, needsKey, raiseFault_of_noFault h0]
      · exact .inr (.inr (.inr (.inl ⟨h0, rfl, hk, _, rfl⟩)))
    · simp [h0]
  | xinv t j =>
    rcases unlessFaulted_next.1 h with ⟨h0, h⟩ | ⟨h0, rfl⟩
    · split at h <;> rename_i hk <;> cases h
      · simp [h0, hk, needsKey, raiseFault_of_noFault h0]
      · exact .inr (.inr (.inr (.inl ⟨h0, rfl, hk, _, rfl⟩)))
    · simp [h0]

end Sys2Proof.Machine
end

