-- ==== Sys2Proof/Laws/PerInstr.lean ====
section
/-! SUPPORT. The families of statements about every instruction as syntax, one lemma for each constructor. -/

namespace Sys2Proof.Laws.EncodingFitsItsRow

/-- The word of a well-formed command is selected by the row of the opcode map that bears its mnemonic (30_encoding.md R87),
and its bits 63:16 are 0 (R81). -/
def Statement (i : Instr) : Prop :=
  i.wf = true → (∃ r ∈ opcodeRows, r.mnemonic = i.mnemonic ∧ r.selects (encode i) = true) ∧ (encode i).toNat < 2 ^ 16

end Sys2Proof.Laws.EncodingFitsItsRow

namespace Sys2Proof

theorem Laws.EncodingFitsItsRow.nop : Laws.EncodingFitsItsRow.Statement .nop :=
  fun _ => ⟨⟨_, List.mem_of_getElem (i := 0) (h := by decide) rfl, rfl, by decide⟩, by decide⟩

set_option maxRecDepth 4000 in
theorem Laws.EncodingFitsItsRow.kgen (n : Nat) : Laws.EncodingFitsItsRow.Statement (.kgen n) := by
  intro h
  have hn : n < 256 := Nat.lt_succ_of_le (of_decide_eq_true h)
  have key : ∀ n < 256, (opcodeRows[1]).selects (encode (.kgen n)) = true ∧ (encode (.kgen n)).toNat < 2 ^ 16 := by decide
  exact ⟨⟨_, List.mem_of_getElem (i := 1) (h := by decide) rfl, rfl, (key n hn).1⟩, (key n hn).2⟩

theorem Laws.EncodingFitsItsRow.enc : Laws.EncodingFitsItsRow.Statement .enc :=
  fun _ => ⟨⟨_, List.mem_of_getElem (i := 2) (h := by decide) rfl, rfl, by decide⟩, by decide⟩

theorem Laws.EncodingFitsItsRow.dec : Laws.EncodingFitsItsRow.Statement .dec :=
  fun _ => ⟨⟨_, List.mem_of_getElem (i := 3) (h := by decide) rfl, rfl, by decide⟩, by decide⟩

theorem Laws.EncodingFitsItsRow.xfwd (t : Transform) (j : Nat) : Laws.EncodingFitsItsRow.Statement (.xfwd t j) := by
  intro h
  have hj : j < 4 := Nat.lt_succ_of_le (of_decide_eq_true h)
  refine ⟨⟨_, List.mem_of_getElem (i := 4) (h := by decide) rfl, rfl, ?_⟩, ?_⟩ <;>
    cases t <;> interval_cases j <;> decide

theorem Laws.EncodingFitsItsRow.xinv (t : Transform) (j : Nat) : Laws.EncodingFitsItsRow.Statement (.xinv t j) := by
  intro h
  have hj : j < 4 := Nat.lt_succ_of_le (of_decide_eq_true h)
  refine ⟨⟨_, List.mem_of_getElem (i := 5) (h := by decide) rfl, rfl, ?_⟩, ?_⟩ <;>
    cases t <;> interval_cases j <;> decide

theorem Laws.EncodingFitsItsRow.reset : Laws.EncodingFitsItsRow.Statement .reset :=
  fun _ => ⟨⟨_, List.mem_of_getElem (i := 6) (h := by decide) rfl, rfl, by decide⟩, by decide⟩

end Sys2Proof
end

