-- ==== Sys2Proof/Laws/Transactions.lean ====
section
/-! SUPPORT. What a transaction can do, once, and which addresses are mapped. -/

namespace Sys2Proof.Machine

/-- The unmapped addresses (R52). -/
theorem regAt_eq_none {cfg : Config} {a : Addr} :
    regAt cfg a = none ↔ a.toNat = 0x03 ∨ 0x09 ≤ a.toNat ∧ a.toNat ≤ 0x0F ∨ 0x10 + cfg.ktCap ≤ a.toNat := by
  unfold regAt
  split <;> simp_all <;> omega

/-- The key table's addresses (R52). -/
theorem regAt_kt {cfg : Config} {a : Addr} (h : 0x10 ≤ a.toNat) (h' : a.toNat < 0x10 + cfg.ktCap) :
    regAt cfg a = some (.kt (a.toNat - 0x10)) := by
  unfold regAt
  split <;> first | omega | simp_all

/-- CMD stands at address 0 alone. -/
theorem regAt_eq_cmd {cfg : Config} {a : Addr} : regAt cfg a = some .cmd ↔ a = 0x00 := by
  constructor
  · intro h
    unfold regAt at h
    split at h <;> simp_all
    exact BitVec.eq_of_toNat_eq (by simpa)
  · rintro rfl; rfl

/-- What stands at a mapped address that is not the key table's. -/
theorem regAt_some_lt {cfg : Config} {a : Addr} {r : Reg} (h : regAt cfg a = some r) (hlt : a.toNat < 0x10) :
    r ∈ [Reg.cmd, .status, .finfo, .p, .q, .s, .psn, .b] := by
  unfold regAt at h
  split at h <;> simp_all <;> omega

/-- Only CMD has no readable value. -/
theorem regValue_eq_none {r : Reg} {s : State} : regValue r s = none ↔ r = .cmd := by cases r <;> simp [regValue]

/-- What a HostRead can do: a readable register's value is returned; or 0 is, and the fault of the access is raised. -/
theorem hostRead_cases {a : Addr} {s t : State} (h : hostRead a s = .next t) :
    (∃ r v, regAt s.cfg a = some r ∧ regValue r s = some v ∧ t = reply v s) ∨
    regAt s.cfg a = none ∧ t = reply 0 (raiseFault .badAddr (readInfo a) s) ∨
    a = 0x00 ∧ t = reply 0 (raiseFault .badAccess (readInfo a) s) := by
  unfold hostRead at h
  split at h
  case h_1 h0 => cases h; exact .inr (.inl ⟨h0, rfl⟩)
  case h_2 r h0 =>
    split at h
    case h_1 v hv => cases h; exact .inl ⟨r, v, h0, hv, rfl⟩
    case h_2 hv => cases h; rw [regValue_eq_none.1 hv] at h0; exact .inr (.inr ⟨regAt_eq_cmd.1 h0, rfl⟩)

/-- A HostWrite to CMD, engine not faulted, is the command word's. -/
theorem hostWrite_cmd {d : Word} {s : State} (h : s.fcode = .noFault) : hostWrite 0x00 d s = runCommandWord d s := by
  unfold hostWrite; rw [if_pos h]; rfl

/-- What a HostWrite can do. Faulted: the exact RESET word resets, anything else is ignored. Not faulted: the fault of the access,
a data register written, a command executed, or ILLEGAL_CMD. -/
theorem hostWrite_cases {a : Addr} {d : Word} {s t : State} (h : hostWrite a d s = .next t) :
    s.fcode ≠ .noFault ∧ (a = 0x00 ∧ d = 0x07 ∧ t = resetEngine s ∨ ¬(a = 0x00 ∧ d = 0x07) ∧ t = s) ∨
    s.fcode = .noFault ∧
      (regAt s.cfg a = none ∧ t = { s with fcode := .badAddr, finfo := writeInfo a } ∨
        (∃ r, regAt s.cfg a = some r ∧ r ≠ .cmd ∧ regWrite r d s = none ∧
          t = { s with fcode := .badAccess, finfo := writeInfo a }) ∨
        (∃ r, regAt s.cfg a = some r ∧ regWrite r d s = some t) ∨
        a = 0x00 ∧ (∃ i, decode d = .ok i ∧ exec i s = .next t) ∨
        a = 0x00 ∧ (∃ e, decode d = .error e) ∧ t = { s with fcode := .illegalCmd, finfo := d }) := by
  unfold hostWrite at h
  split at h
  case isFalse h0 =>
    refine .inl ⟨h0, ?_⟩
    unfold hostWriteFaulted at h
    split at h <;> rename_i hc <;> cases h
    · exact .inl ⟨hc.1, hc.2, rfl⟩
    · exact .inr ⟨hc, rfl⟩
  case isTrue h0 =>
    refine .inr ⟨h0, ?_⟩
    split at h
    case h_1 hr => cases h; exact .inl ⟨hr, raiseFault_of_noFault h0⟩
    case h_2 hr =>
      have ha := regAt_eq_cmd.1 hr
      unfold runCommandWord at h
      split at h
      case h_1 i hd => exact .inr (.inr (.inr (.inl ⟨ha, i, hd, h⟩)))
      case h_2 e hd => cases h; exact .inr (.inr (.inr (.inr ⟨ha, ⟨e, hd⟩, raiseFault_of_noFault h0⟩)))
    case h_3 r hne hr =>
      split at h
      case h_1 s' hw => cases h; exact .inr (.inr (.inl ⟨r, hr, hw⟩))
      case h_2 hw => cases h; exact .inr (.inl ⟨r, hr, fun e => hne (e ▸ rfl), hw, raiseFault_of_noFault h0⟩)

/-- A written data register: which one, and the state it leaves. -/
theorem regWrite_cases {r : Reg} {d : Word} {s t : State} (h : regWrite r d s = some t) :
    r = .p ∧ t = setP d s ∨ r = .q ∧ t = setQ d s ∨ r = .s ∧ t = setS d s ∨ r = .psn ∧ t = setPsn d s ∨
      r = .b ∧ t = setB d s := by
  cases r <;> simp_all [regWrite]

/-- A step serves the oldest event, in the state without it. -/
theorem step_of_inbox {s : State} {e : HostEvent} {es : List HostEvent} (h : s.inbox = e :: es) :
    step s = serve e (setInbox es s) := by
  unfold step serveOldest; rw [h]

/-- A step without an event keeps the state. -/
theorem step_of_inbox_nil {s : State} (h : s.inbox = []) : step s = .next s := by
  unfold step serveOldest; rw [h]

/-- Events served one list after the other. -/
theorem serveAll_append (es es' : List HostEvent) (s : State) :
    serveAll (es ++ es') s = andThen (serveAll es s) (serveAll es') := by
  induction es generalizing s with
  | nil => rfl
  | cons e es ih => simp only [List.cons_append, serveAll]; cases serve e s <;> simp [andThen, ih]

/-! The events that wait do not influence what a transaction does: it commutes with putting other events behind it. -/

theorem raiseFault_setInbox (c : FCode) (info : Word) (es : List HostEvent) (s : State) :
    raiseFault c info (setInbox es s) = setInbox es (raiseFault c info s) := by
  by_cases h : s.fcode = .noFault
  · rw [raiseFault_of_noFault h, raiseFault_of_noFault (by exact h)]; rfl
  · rw [raiseFault_of_faulted h, raiseFault_of_faulted (by exact h)]

theorem unlessFaulted_setInbox {es : List HostEvent} {s : State} {body body' : Result}
    (h : body' = andThen body fun t => .next (setInbox es t)) :
    unlessFaulted (setInbox es s) body' = andThen (unlessFaulted s body) fun t => .next (setInbox es t) := by
  by_cases h0 : s.fcode = .noFault
  · rw [unlessFaulted_of_noFault h0, unlessFaulted_of_noFault (by exact h0), h]
  · rw [unlessFaulted_of_faulted h0, unlessFaulted_of_faulted (by exact h0)]; rfl

theorem exec_setInbox (i : Instr) (es : List HostEvent) (s : State) :
    exec i (setInbox es s) = andThen (exec i s) fun t => .next (setInbox es t) := by
  cases i with
  | nop => rfl
  | reset => rfl
  | kgen n =>
    refine unlessFaulted_setInbox ?_
    by_cases h : n > s.cfg.ktCap
    · rw [if_pos h, if_pos (by exact h)]; simp only [raiseByCommand, raiseFault_setInbox]; rfl
    · rw [if_neg h, if_neg (by exact h)]; rfl
  | enc =>
    refine unlessFaulted_setInbox ?_
    show (match encBlock s.b s.kt s.klen s.psn.toNat with | none => _ | some v => _) = _
    cases encBlock s.b s.kt s.klen s.psn.toNat <;> simp only [raiseByCommand, raiseFault_setInbox] <;> rfl
  | dec =>
    refine unlessFaulted_setInbox ?_
    show (match decBlock s.b s.kt s.klen s.psn.toNat with | none => _ | some v => _) = _
    cases decBlock s.b s.kt s.klen s.psn.toNat <;> simp only [raiseByCommand, raiseFault_setInbox] <;> rfl
  | xfwd t j =>
    refine unlessFaulted_setInbox ?_
    by_cases h : s.klen = 0
    · rw [if_pos h, if_pos (by exact h)]; simp only [raiseByCommand, raiseFault_setInbox]; rfl
    · rw [if_neg h, if_neg (by exact h)]; rfl
  | xinv t j =>
    refine unlessFaulted_setInbox ?_
    by_cases h : s.klen = 0
    · rw [if_pos h, if_pos (by exact h)]; simp only [raiseByCommand, raiseFault_setInbox]; rfl
    · rw [if_neg h, if_neg (by exact h)]; rfl

theorem hostRead_setInbox (a : Addr) (es : List HostEvent) (s : State) :
    hostRead a (setInbox es s) = andThen (hostRead a s) fun t => .next (setInbox es t) := by
  unfold hostRead
  rw [setInbox_cfg]
  cases regAt s.cfg a with
  | none => simp only [raiseFault_setInbox]; rfl
  | some r => cases r <;> simp only [regValue, raiseFault_setInbox] <;> rfl

theorem hostWrite_setInbox (a : Addr) (d : Word) (es : List HostEvent) (s : State) :
    hostWrite a d (setInbox es s) = andThen (hostWrite a d s) fun t => .next (setInbox es t) := by
  unfold hostWrite
  by_cases h0 : s.fcode = .noFault
  · rw [if_pos h0, if_pos (by exact h0), setInbox_cfg]
    cases regAt s.cfg a with
    | none => simp only [raiseFault_setInbox]; rfl
    | some r =>
      cases r with
      | cmd =>
        simp only [runCommandWord]
        cases decode d with
        | ok i => exact exec_setInbox i es s
        | error e => simp only [raiseFault_setInbox]; rfl
      | _ => simp only [regWrite, raiseFault_setInbox] <;> rfl
  · rw [if_neg h0, if_neg (by exact h0)]
    unfold hostWriteFaulted
    split <;> rfl

theorem serve_setInbox (e : HostEvent) (es : List HostEvent) (s : State) :
    serve e (setInbox es s) = andThen (serve e s) fun t => .next (setInbox es t) := by
  cases e with
  | write a d => exact hostWrite_setInbox a d es s
  | read a => exact hostRead_setInbox a es s
  | hardReset => rfl

end Sys2Proof.Machine
end

