-- ==== Sys2Proof/Laws/Run.lean ====
section
/-! SUPPORT. Runs of the machine, one step at a time, and that they are the host's runs of the core. -/

namespace Sys2Proof.Machine

@[simp] theorem runSteps_zero (s : State) : runSteps 0 s = .next s := rfl

theorem runSteps_succ (k : Nat) (s : State) : runSteps (k + 1) s = andThen (step s) (runSteps k) := rfl

/-- The first step of a run whose inbox begins with an event serves it. -/
theorem runSteps_of_inbox {k : Nat} {s : State} {e : HostEvent} {es : List HostEvent} (h : s.inbox = e :: es) :
    runSteps (k + 1) s = andThen (serve e (setInbox es s)) (runSteps k) := by
  rw [runSteps_succ, step_of_inbox h]

/-- The host's run of the core is the machine's run. -/
theorem core_run_eq (k : Nat) (s : State) : Host.Core.run core k s = runSteps k s := by
  induction k generalizing s with
  | zero => rfl
  | succ k ih =>
    refine (Host.Core.run.eq_2 core s k).trans ?_
    have h : core.step s = step s := rfl
    rw [h, runSteps_succ]
    cases step s with
    | next t => exact ih t
    | fault r => rfl
    | refused r => rfl

end Sys2Proof.Machine
end

