-- ==== Sys2Proof/Tests/Slice0.lean ====
section
/-! SUPPORT. Tests with expected values from spec/95_test_vectors.md and from the words of spec/30_encoding.md R87, and for each
statement with hypotheses a witness: concrete values that meet all of them. -/

namespace Sys2Proof.Tests

open Sys2Proof.Machine Sys2Proof.Safety

/-- One thing about the next state that an answer holds. -/
def view {α : Type} (f : State → α) : Result → Option α
  | .next s => some (f s)
  | .fault _ => none
  | .refused _ => none

/-- The table 0x9, 0x36, 0x1CE of 95_test_vectors.md 4.4, its seeds, and the block 0x10. -/
def small : State :=
  { State.reset with p := 1, q := 3, s := 2, b := 0x10, kt := [0x9, 0x36, 0x1CE, 0, 0, 0, 0, 0], klen := 3 }

/-- The state of 43_control_commands.md R181's worked example: EMPTY_KT recorded, B = 0x1234. -/
def emptyFaulted : State := { State.reset with b := 0x1234, fcode := .emptyKt, finfo := 0x02 }

/-- The state with these events waiting. -/
def asked (s : State) (es : List HostEvent) : State := { s with inbox := es }

/-- KT8, the table of the source's pinned triple (95_test_vectors.md 2.1). -/
def kt8 : List Word :=
  [0x38702773025443DC, 0xC3813BCA08B6EC1C, 0x1C09DE823BCC2E1C, 0xE04EF5D0783A3E1C,
    0x0277AC274349BE1C, 0x13BD61F6E34DBE1C, 0x9DEB1073E36DBE1C, 0xEF58845BE46DBE1C]

/-! ### Well-formedness (30_encoding.md R95) -/

theorem test_wf_refuses_count_256 : (Instr.kgen 256).wf = false := by decide
theorem test_wf_refuses_slot_4_of_xfwd : (Instr.xfwd .xork 4).wf = false := by decide
theorem test_wf_refuses_slot_4_of_xinv : (Instr.xinv .ror7 4).wf = false := by decide
theorem test_wf_refuses_register_past_the_addresses : (Reg.kt 240).wf = false := by decide
theorem test_wf_refuses_lines :
    (ScriptLine.rd (.kt 240)).wf = false ∧ (ScriptLine.wr (.kt 300) 0).wf = false ∧
      (ScriptLine.cmd (.kgen 256)).wf = false ∧ (ScriptLine.generate 1 3 2 256).wf = false := by decide
theorem test_wf_accepts_the_boundaries :
    (Instr.kgen 255).wf = true ∧ (Instr.xfwd .ror7 3).wf = true ∧ (Instr.xinv .ror7 3).wf = true ∧
      (Reg.kt 239).wf = true := by decide
theorem test_config_bounds :
    ¬(Config.mk 7).Legal ∧ (Config.mk 8).Legal ∧ (Config.mk 240).Legal ∧ ¬(Config.mk 241).Legal := by decide

/-! ### Decoding: the words bit by bit from 30_encoding.md R82 to R87, and 95_test_vectors.md section 5 -/

theorem test_decode_nop : decode 0b0000000000000000 = .ok .nop := by decide
theorem test_decode_kgen : decode 0b0000100000000001 = .ok (.kgen 8) := by decide
theorem test_decode_enc : decode 0b0000000000000010 = .ok .enc := by decide
theorem test_decode_dec : decode 0b0000000000000011 = .ok .dec := by decide
theorem test_decode_xfwd : decode 0b0000011000000100 = .ok (.xfwd .addk 1) := by decide
theorem test_decode_xinv : decode 0b0000111100000101 = .ok (.xinv .ror7 3) := by decide
theorem test_decode_reset : decode 0b0000000000000111 = .ok .reset := by decide
theorem test_decode_rejects_opcodes :
    decode 0x06 = .error (.unassignedOpcode 0x06) ∧ decode 0x08 = .error (.unassignedOpcode 0x08) ∧
      decode 0xFF = .error (.unassignedOpcode 0xFF) := by decide
theorem test_decode_rejects_reserved_bits :
    decode 0x100 = .error .operandOfFormatZ ∧ decode 0x102 = .error .operandOfFormatZ ∧
      decode 0x107 = .error .operandOfFormatZ ∧ decode 0x1004 = .error .reservedOfFormatX ∧
      decode 0x10001 = .error .reservedHighBits ∧ decode 0x8000000000000002 = .error .reservedHighBits ∧
      decode 0x10901 = .error .reservedHighBits := by decide
theorem test_decode_table_word :
    decodeTableWord 64 0x0C04 = some (.xfwd .xork 3) ∧ decodeTableWord 64 0x6 = none := by decide
theorem test_encode_words :
    encode (.kgen 8) = 0x0801 ∧ encode (.xfwd .addk 1) = 0x0604 ∧ encode (.xinv .ror7 3) = 0x0F05 := by decide
theorem test_fetch_word_runs_first :
    view (·.klen) (step (State.reset.withFetchWord 64 0x0801)) = some 8 := by decide

/-! ### The commands (95_test_vectors.md 2.3, 3, 4.4; 43_control_commands.md) -/

theorem test_nop : view id (exec .nop small) = some small := by decide
theorem test_kgen :
    view (fun t => (t.kt, t.klen, t.s)) (exec (.kgen 3) { State.reset with p := 1, q := 3, s := 2 }) =
      some ([0x9, 0x36, 0x1CE, 0, 0, 0, 0, 0], 3, 2) := by decide
theorem test_kgen_past_the_capacity :
    view (fun t => (t.fcode, t.finfo, t.kt)) (exec (.kgen 9) small) = some (.lenRange, 0x901, small.kt) := by decide
theorem test_enc : view (·.b) (exec .enc small) = some 0xDC00000000000009 := by decide
theorem test_enc_needs_a_key :
    view (fun t => (t.fcode, t.finfo, t.b)) (exec .enc { State.reset with b := 0x1234 }) =
      some (.emptyKt, 0x02, 0x1234) := by decide
theorem test_dec : view (·.b) (exec .dec { small with b := 0x40000000000039C6, psn := 2 }) = some 0x10 := by decide
theorem test_dec_ignored_while_faulted : view id (exec .dec emptyFaulted) = some emptyFaulted := by decide
theorem test_xfwd_reuses_the_first_key : view (·.b) (exec (.xfwd .xork 3) small) = some 0x19 := by decide
theorem test_xfwd_rotates_right : view (·.b) (exec (.xfwd .ror7 0) small) = some 0x2000000000000000 := by decide
theorem test_xinv_borrows : view (·.b) (exec (.xinv .addk 2) small) = some 0xFFFFFFFFFFFFFE42 := by decide
theorem test_xinv_rotates_right :
    view (·.b) (exec (.xinv .rol5 0) { small with b := 0x200 }) = some 0x10 := by decide
theorem test_reset : view id (exec .reset emptyFaulted) = some State.reset := by decide

/-! ### Transactions (95_test_vectors.md program 3) -/

theorem test_write_of_a_key_faults :
    view (fun t => (t.fcode, t.finfo, t.kt)) (step (asked small [.write 0x10 5])) =
      some (.badAccess, 0x110, small.kt) := by decide
theorem test_write_past_the_table_faults :
    view (fun t => (t.fcode, t.finfo)) (step (asked small [.write 0x18 5])) = some (.badAddr, 0x118) := by decide
theorem test_read_of_cmd_faults :
    view (fun t => (t.fcode, t.finfo, t.outbox)) (step (asked small [.read 0x00])) =
      some (.badAccess, 0, [0]) := by decide
theorem test_read_of_status :
    view State.outbox (step (asked emptyFaulted [.read 0x01])) = some [0x0000000000080031] := by decide
theorem test_read_while_faulted_records_nothing :
    view (fun t => (t.finfo, t.outbox)) (step (asked emptyFaulted [.read 0x03])) = some (0x02, [0]) := by decide
theorem test_not_quite_reset_is_ignored_while_faulted :
    view id (step (asked emptyFaulted [.write 0x00 0x107])) = some emptyFaulted := by decide

/-! ### The functions (95_test_vectors.md 2.1, 2.2, 4.1, 4.2, 4.5) -/

theorem test_pinned_triple : generate 104729 1299709 9876543210123456789 8 = kt8 := by decide
theorem test_wide_seed : generateNat (104729 + 7 * 2 ^ 64) 1299709 9876543210123456789 1 = [0x38702773025443DC] := by decide
theorem test_key_schedule_wraps :
    generateNat 0x8000000000000000 2 0x2000000000000000 3 = [0x4000000000000000, 0x4, 0x24] := by decide
theorem test_enc_block_key_follows_the_counter :
    encBlock 0x4142000000000000 kt8 8 1 = some 0xA99977A7EC2B53C4 := by decide
theorem test_enc_block_of_a_wide_position :
    encBlock 0x4142000000000000 kt8 8 0xFFFFFFFFFFFFFFFF = some 0x40C6EF118F17C1B4 := by decide
theorem test_dec_block : decBlock 0x0123456789ABCDEF kt8 8 2 = some 0xC7F22D10BE63F5D6 := by decide
theorem test_zero_table : encBlock 0x0123456789ABCDEF [0] 1 3 = some 0xC048D159E26AF37B := by decide

/-! ### The host's functions (95_test_vectors.md section 6; 30_encoding.md R93 to R96) -/

/-- U+20AC, "uro ", U+1F4A1. -/
def euro : Text := [Char.ofNat 0x20AC, 'u', 'r', 'o', ' ', Char.ofNat 0x1F4A1]

theorem test_text_to_blocks : textToBlocks euro = [0xE282AC75726F20F0, 0x9F92A10000000000] := by decide
theorem test_position : selectInitialPosition 0 (utf8Encode euro) = 8 := by decide
theorem test_strip_crosses_blocks :
    stripTrailingZeros (blocksToBytes [0x4142000000000000, 0]) = [0x41, 0x42] := by decide
theorem test_blocks_to_text_drops_invalid_bytes :
    blocksToText dropUndecodable [0xFF41C34200000000] = ['A', 'B'] := by decide
theorem test_trailing_zero_is_lost :
    blocksToText dropUndecodable (textToBlocks ['a', Char.ofNat 0]) = ['a'] := by decide
/-- `WR   P, 0x1_0 ; P`. -/
def writeLine : Text := ['W', 'R', ' ', ' ', ' ', 'P', ',', ' ', '0', 'x', '1', '_', '0', ' ', ';', ' ', 'P']

/-- `RD  KT[7]`. -/
def readLine : Text := ['R', 'D', ' ', ' ', 'K', 'T', '[', '7', ']']

/-- `CMD XFWD 2, 1`. -/
def xfwdLine : Text := ['C', 'M', 'D', ' ', 'X', 'F', 'W', 'D', ' ', '2', ',', ' ', '1']

theorem test_script_of_text :
    parseScript [writeLine, [';', 'x'], readLine, [], xfwdLine] =
      some [.wr .p 0x10, .rd (.kt 7), .cmd (.xfwd .addk 1)] := by decide
theorem test_script_refuses_operands_out_of_range :
    parseScript [['C', 'M', 'D', ' ', 'K', 'G', 'E', 'N', ' ', '2', '5', '6']] = none ∧
      parseScript [['C', 'M', 'D', ' ', 'X', 'F', 'W', 'D', ' ', '4', ',', '0']] = none ∧
      parseScript [['R', 'D', ' ', 'K', 'T', '[', '2', '4', '0', ']']] = none := by decide
/-- The model's choice, log entry 12. -/
theorem test_number_grouping_is_free :
    parseNumber ['_', '5'] = some 5 ∧ parseNumber ['0', 'x', '_', '1'] = some 1 ∧ parseNumber ['5', '_', '_'] = some 5 ∧
      parseNumber ['0', 'x', '_'] = none := by decide
/-- The model's choice, log entry 12. -/
theorem test_hexadecimal_digits_in_both_cases :
    parseNumber ['0', 'x', 'a', 'F'] = some 0xAF ∧ parseNumber ['0', 'X', '1'] = none ∧ parseNumber ['a'] = none := by decide
/-- The model's choice, log entry 20: KT_CAP = 8, and the table ends at `KT[7]`. -/
theorem test_script_names_an_entry_past_the_table :
    parseReg ['K', 'T', '[', '2', '3', '9', ']'] = some (.kt 239) ∧
      view (·.fcode) (runScript [.rd (.kt 8)] State.reset) = some .badAddr := by decide

/-! ### Witnesses: for each statement with hypotheses, values that meet all of them, at the boundaries of each clause -/

/-- A second engine with the keys of `small` that a block uses, and another position of the same pipeline. -/
def twin : State := { small with psn := 4, b := 0x77, kt := [0x9, 0x36, 0x1CE, 0x9, 5, 0, 0, 0], klen := 5 }

/-- An engine with a table of eight zeros: KGEN 8 from the reset seeds (95_test_vectors.md 2.3). -/
def zeros : State := { State.reset with klen := 8, b := 0x0123456789ABCDEF }

theorem witness_ArithmeticOperatorsAreTheTables :
    (0 < 64 ∧ 63 < 64) ∧ (0 < 1 ∧ 1 < 64) ∧ (0 < 63 ∧ 63 < 64) ∧
      rotl64 0x4142000000000000 5 = 0x2840000000000008 := by decide
theorem witness_StateInvariantKeptByEveryStep :
    StateInv (asked small [.write 0x00 0x0201]) ∧
      view (·.klen) (step (asked small [.write 0x00 0x0201])) = some 2 := by decide
theorem witness_ResetStateMeetsTheInvariants : (Config.mk 8).Legal ∧ (Config.mk 240).Legal := by decide
theorem witness_ReachableStatesKeepTheTableAndFaultLaws :
    Config.reference.Legal ∧ (3 : Nat) ≤ 7 ∧ 7 < Config.reference.ktCap := by decide
theorem witness_StatusReadGivesItsFields :
    StateInv (asked small [.read 0x01]) ∧ (asked small [.read 0x01]).inbox = .read 0x01 :: [] ∧
      StateInv (asked emptyFaulted [.read 0x01]) := by decide
theorem witness_DataRegisterTakesTheWrittenValue :
    small.fcode = .noFault ∧ (asked small [.write 0x04 1]).inbox = .write 0x04 1 :: [] ∧
      (asked small [.write 0x05 1]).inbox = .write 0x05 1 :: [] ∧
      (asked small [.write 0x06 1]).inbox = .write 0x06 1 :: [] ∧
      (asked small [.write 0x07 1]).inbox = .write 0x07 1 :: [] ∧
      (asked small [.write 0x08 1]).inbox = .write 0x08 1 :: [] := by decide
theorem witness_ReadableRegisterReturnsItsValue :
    StateInv small ∧ StateInv emptyFaulted ∧
      ((0x01 : Addr), statusWord small) ∈ [((0x01 : Addr), statusWord small), (0x08, small.b)] ∧
      (0 < small.cfg.ktCap ∧ (asked small [.read 0x10]).inbox = .read (BitVec.ofNat 8 (0x10 + 0)) :: []) ∧
      (7 < small.cfg.ktCap ∧ small.klen ≤ 7 ∧ (asked small [.read 0x17]).inbox = .read (BitVec.ofNat 8 (0x10 + 7)) :: []) ∧
      (CipherReady small ∧ encBlock small.b small.kt small.klen small.psn.toNat = some 0xDC00000000000009) ∧
      (decBlock small.b small.kt small.klen small.psn.toNat).isSome = true := by decide
theorem witness_ForbiddenAccessRaisesBadAccess :
    small.fcode = .noFault ∧ (0x10 ≤ (0x10 : Addr).toNat ∧ (0x10 : Addr).toNat < 0x10 + small.cfg.ktCap) ∧
      (0x10 ≤ (0x17 : Addr).toNat ∧ (0x17 : Addr).toNat < 0x10 + small.cfg.ktCap) ∧
      (asked small [.write 0x17 5]).inbox = .write 0x17 5 :: [] ∧
      (asked small [.read 0x00]).inbox = .read 0x00 :: [] := by decide
theorem witness_UnmappedAddressRaisesBadAddr :
    small.fcode = .noFault ∧ (0x09 ≤ (0x09 : Addr).toNat ∧ (0x0F : Addr).toNat ≤ 0x0F) ∧
      0x10 + small.cfg.ktCap ≤ (0x18 : Addr).toNat ∧ 0x10 + small.cfg.ktCap ≤ (0xFF : Addr).toNat ∧
      (asked small [.read 0x03]).inbox = .read 0x03 :: [] ∧
      (asked small [.write 0x18 5]).inbox = .write 0x18 5 :: [] := by decide
theorem witness_ReadAfterWriteOfDataRegister :
    small.fcode = .noFault ∧ 0x04 ≤ (0x04 : Addr).toNat ∧ (0x08 : Addr).toNat ≤ 0x08 ∧
      regAt small.cfg 0x08 = some .b ∧ regValue .b small = some 0x10 ∧
      (asked small [.write 0x04 5, .read 0x08]).inbox = .write 0x04 5 :: .read 0x08 :: [] ∧
      (asked small [.write 0x08 5, .read 0x08]).inbox = .write 0x08 5 :: .read 0x08 :: [] := by decide
theorem witness_EngineWithoutEventsStays : State.reset.inbox = [] := by decide
theorem witness_DecodeOfEncodeIsTheInstruction :
    (Instr.kgen 0).wf = true ∧ (Instr.kgen 255).wf = true ∧ (Instr.xfwd .ror7 3).wf = true := by decide
theorem witness_EncodeOfDecodeIsTheWord : decode 0xFF01 = .ok (.kgen 255) := by decide
theorem witness_DecoderAcceptsExactlyTheOpcodeMap :
    decode 0x0F04 = .ok (.xfwd .ror7 3) ∧
      ∃ r ∈ opcodeRows, (0x0F04 : Word) &&& r.mask = r.pattern ∧ r.mnemonic = "XFWD" := by decide
theorem witness_StepRunsTheDecodedCommand :
    (asked small [.write 0x00 0x0604]).inbox = .write 0x00 0x0604 :: [] ∧ decode 0x0604 = .ok (.xfwd .addk 1) ∧
      (Instr.xfwd .addk 1).wf = true ∧ view (·.b) (exec (.xfwd .addk 1) small) = some 0x46 := by decide
theorem witness_ShorterTableIsAPrefix : (0 : Nat) ≤ 3 ∧ (3 : Nat) ≤ 3 ∧ (3 : Nat) ≤ 8 := by decide
theorem witness_SubkeysFollowTheClosedForm :
    (0 : Nat) < 1 ∧ (7 : Nat) < 8 ∧ (22 : Nat) ≤ 22 ∧ (1 : Nat) ≤ 1 := by decide
theorem witness_KgenFillsTheKeyTable :
    small.fcode = .noFault ∧ 0 ≤ small.cfg.ktCap ∧ 8 ≤ small.cfg.ktCap ∧ small.cfg.ktCap < 9 ∧ 9 ≤ 255 ∧
      (asked small [.write 0x00 0x10901]).inbox = .write 0x00 0x10901 :: [] ∧ bitField 0x10901 7 0 = 0x01 ∧
      bitField 0x10901 63 16 ≠ 0 := by decide
theorem witness_KgenIsDeterminedByTheSeeds :
    small.fcode = .noFault ∧ twin.fcode = .noFault ∧ 8 ≤ small.cfg.ktCap ∧ twin.cfg = small.cfg ∧ twin.p = small.p ∧
      twin.q = small.q ∧ twin.s = small.s ∧ view (·.klen) (exec (.kgen 8) small) = some 8 ∧
      view (·.klen) (exec (.kgen 8) twin) = some 8 := by decide
theorem witness_ShorterKgenKeepsTheFirstKeys :
    small.fcode = .noFault ∧ (7 : Nat) < 8 ∧ 8 ≤ small.cfg.ktCap ∧
      view (·.klen) (andThen (exec (.kgen 8) small) (exec (.kgen 7))) = some 7 := by decide
theorem witness_RotationsIgnoreTheKey :
    small.fcode = .noFault ∧ 1 ≤ small.klen ∧ (Transform.rol5 = .rol5 ∨ Transform.rol5 = .ror7) ∧
      (Transform.ror7 = .rol5 ∨ Transform.ror7 = .ror7) := by decide
theorem witness_XfwdAppliesOneForwardTransform :
    small.fcode = .noFault ∧ 1 ≤ small.klen ∧ State.reset.fcode = .noFault ∧ State.reset.klen = 0 ∧ (3 : Nat) < 4 ∧
      (asked small [.write 0x00 0x1004]).inbox = .write 0x00 0x1004 :: [] ∧ bitField 0x1004 7 0 = 0x04 ∧
      bitField 0x1004 15 12 ≠ 0 := by decide
theorem witness_XinvAppliesOneInverseTransform :
    small.fcode = .noFault ∧ 1 ≤ small.klen ∧ State.reset.fcode = .noFault ∧ State.reset.klen = 0 ∧ (3 : Nat) < 4 ∧
      (asked small [.write 0x00 0x1005]).inbox = .write 0x00 0x1005 :: [] ∧ bitField 0x1005 7 0 = 0x05 ∧
      bitField 0x1005 15 12 ≠ 0 := by decide
theorem witness_PipelineOfEachPosition :
    1 ≤ small.klen ∧ 16 % 4 = 0 ∧ 13 % 4 = 1 ∧ 2 % 4 = 2 ∧ (2 ^ 64 - 1) % 4 = 3 := by decide
theorem witness_OnlyThePositionModuloFourMatters :
    bitField twin.psn 1 0 = bitField small.psn 1 0 ∧ twin.psn ≠ small.psn ∧
      view (·.b) (exec .enc small) = some 0xDC00000000000009 ∧
      view (·.fcode) (exec .dec small) = some .noFault := by decide
theorem witness_OnlyTheFirstFourKeysAreUsed :
    (∀ j < min 8 4, ktEntry (kt8.take 4) j = ktEntry kt8 j) ∧ kt8.take 4 ≠ kt8 ∧ (4 : Nat) ≤ 4 ∧ (3 : Nat) < 4 := by
  decide
theorem witness_BlockCipherRoundTrip : 1 ≤ small.klen ∧ (1 : Nat) ≤ 1 := by decide
theorem witness_EncEnciphersTheBlock :
    small.fcode = .noFault ∧ 1 ≤ small.klen ∧ State.reset.fcode = .noFault ∧ State.reset.klen = 0 ∧
      zeros.fcode = .noFault ∧ 1 ≤ zeros.klen ∧ (∀ j < zeros.klen, ktEntry zeros.kt j = 0) ∧
      (asked small [.write 0x00 0x102]).inbox = .write 0x00 0x102 :: [] ∧ bitField 0x102 7 0 = 0x02 ∧
      bitField 0x102 63 8 ≠ 0 := by decide
theorem witness_DecDeciphersTheBlock :
    small.fcode = .noFault ∧ 1 ≤ small.klen ∧ State.reset.fcode = .noFault ∧ State.reset.klen = 0 ∧
      zeros.fcode = .noFault ∧ 1 ≤ zeros.klen ∧ (∀ j < zeros.klen, ktEntry zeros.kt j = 0) ∧
      (asked small [.write 0x00 0x8000000000000003]).inbox = .write 0x00 0x8000000000000003 :: [] ∧
      bitField 0x8000000000000003 7 0 = 0x03 ∧ bitField 0x8000000000000003 63 8 ≠ 0 := by decide
theorem witness_EncIsFourForwardTransforms : CipherReady small := by decide
theorem witness_EncThenDecRestoresTheBlock :
    CipherReady small ∧ CipherReady twin ∧ twin.psn.toNat % 4 = small.psn.toNat % 4 ∧
      (∀ i < 4, slotKey twin.kt twin.klen i = slotKey small.kt small.klen i) ∧
      view (·.b) (exec .enc small) = some 0xDC00000000000009 := by decide
theorem witness_NopChangesNothing :
    small.fcode = .noFault ∧ (asked small [.write 0x00 0]).inbox = .write 0x00 0 :: [] ∧
      (asked small [.write 0x00 0x100]).inbox = .write 0x00 0x100 :: [] ∧ bitField 0x100 7 0 = 0 ∧
      bitField 0x100 63 8 ≠ 0 := by decide
theorem witness_ResetLeavesEveryRegisterZero :
    (asked emptyFaulted [.write 0x00 0x07]).inbox = .write 0x00 0x07 :: [] ∧
      (asked emptyFaulted [.hardReset]).inbox = .hardReset :: [] := by decide
theorem witness_IllegalWordRaisesIllegalCmd :
    small.fcode = .noFault ∧ (asked small [.write 0x00 0x06]).inbox = .write 0x00 0x06 :: [] ∧
      bitField 0x10000 63 16 ≠ 0 ∧ 0x06 ∉ [0x00, 0x01, 0x02, 0x03, 0x04, 0x05, 0x07] ∧
      (bitField 0x107 7 0 = 0x07 ∧ bitField 0x107 15 8 ≠ 0) ∧
      (bitField 0xF005 7 0 = 0x05 ∧ bitField 0xF005 15 12 ≠ 0) ∧
      ((asked small [.write 0x00 0xFF01]).inbox = .write 0x00 0xFF01 :: [] ∧ bitField 0xFF01 63 16 = 0 ∧
        bitField 0xFF01 7 0 = 0x01) := by decide
theorem witness_CipherCommandsNeedAKey :
    (State.reset.fcode = .noFault ∧ State.reset.klen = 0 ∧ (0x0F05 : Word) &&& 0xFFFFFFFFFFFFF0FF = 0x05) ∧
      (small.fcode = .noFault ∧ 1 ≤ small.klen ∧ (0x0F04 : Word) &&& 0xFFFFFFFFFFFFF0FF = 0x04) ∧
      view (·.fcode) (step (asked State.reset [.write 0x00 0x02])) = some .emptyKt ∧
      view (·.klen) (step (asked small [.write 0x00 0x01])) = some 0 := by decide
theorem witness_LongKgenRaisesLenRange :
    small.fcode = .noFault ∧ (asked small [.write 0x00 0x901]).inbox = .write 0x00 0x901 :: [] ∧
      (0x901 : Word) &&& 0xFFFFFFFFFFFF00FF = 0x01 ∧ small.cfg.ktCap < bitField 0x901 15 8 := by decide
theorem witness_FirstConditionChoosesTheFault :
    emptyFaulted.fcode ≠ .noFault ∧ view (·.fcode) (step (asked emptyFaulted [.hardReset])) = some .noFault ∧
      small.fcode = .noFault ∧ view (·.fcode) (step (asked small [.read 0x0F])) = some .badAddr ∧
      view (·.fcode) (step (asked small [.write 0x02 0])) = some .badAccess ∧
      view (·.fcode) (step (asked small [.write 0x00 0x10901])) = some .illegalCmd ∧
      view (·.fcode) (step (asked small [.write 0x00 0x901])) = some .lenRange ∧
      view (·.fcode) (step (asked State.reset [.write 0x00 0x0104])) = some .emptyKt ∧
      view (·.fcode) (step (asked small [.write 0x08 0])) = some .noFault := by decide
theorem witness_FaultEntryRecordsAndChangesNothingElse :
    small.fcode = .noFault ∧ (asked small [.read 0x00]).inbox = .read 0x00 :: [] ∧
      view (·.fcode) (step (asked small [.read 0x00])) = some .badAccess ∧
      view (·.fcode) (step (asked small [.read 0xFF])) = some .badAddr ∧
      view (·.fcode) (step (asked small [.write 0x01 5])) = some .badAccess ∧
      view (·.fcode) (step (asked small [.write 0x00 0x901])) = some .lenRange := by decide
theorem witness_FaultedEngineIgnoresAllButReset :
    emptyFaulted.fcode ≠ .noFault ∧ regAt emptyFaulted.cfg 0x17 = some (.kt 7) ∧ regValue (.kt 7) emptyFaulted = some 0 ∧
      0x10 + emptyFaulted.cfg.ktCap ≤ (0x18 : Addr).toNat ∧ (0x08 : Addr) ≠ 0x00 ∧
      (0x107 : Word) ≠ 0x0000000000000007 ∧
      (asked emptyFaulted [.write 0x00 0x07]).inbox = .write 0x00 0x0000000000000007 :: [] := by decide
theorem witness_OnlyResetLeavesTheFaultedState :
    emptyFaulted.fcode ≠ .noFault ∧ view (·.fcode) (step (asked emptyFaulted [.write 0x08 1])) = some .emptyKt ∧
      view (·.fcode) (step (asked emptyFaulted [.write 0x00 0x07])) = some .noFault := by decide
theorem witness_FaultRecordKeptByEveryStep :
    FaultRecord (asked State.reset [.write 0x00 0x02]) ∧
      view (·.finfo) (step (asked State.reset [.write 0x00 0x02])) = some 0x02 := ⟨rfl, by decide⟩
theorem witness_FaultIsStickyUntilReset :
    emptyFaulted.fcode ≠ .noFault ∧ ∀ e ∈ [HostEvent.write 0x00 0x0801, .read 0x03, .write 0x08 5], resets e = false := by
  decide
theorem witness_OneCheckCoversTheBatch :
    (∀ e ∈ [HostEvent.write 0x08 5, .write 0x00 0x02], resets e = false) ∧
      view (·.fcode) (serveAll [.write 0x08 5, .write 0x00 0x02] small) = some .noFault := by decide
theorem witness_BootLeavesAReadyEngine :
    (Config.mk 240).Legal ∧ (1 : Nat) ≤ 1 ∧ 1 ≤ 240 ∧ Config.reference.Legal ∧ 8 ≤ Config.reference.ktCap := by decide
theorem witness_PseudoCommandsDoWhatTheyAbbreviate :
    CipherReady small ∧ StateInv small ∧ encBlock 0x10 small.kt small.klen small.psn.toNat = some 0xDC00000000000009 ∧
      decBlock 0xDC00000000000009 small.kt small.klen small.psn.toNat = some 0x10 := by decide
theorem witness_EncodingOfTextIsFaithful : utf8Encode euro = utf8Encode euro := rfl
theorem witness_FramerRoundTrip :
    blocksToText dropUndecodable (textToBlocks ['A', 'B']) = ['A', 'B'] ∧
      (['A', 'B'] : Text).getLast? ≠ some (Char.ofNat 0) := by decide
theorem witness_PaddingKeepsThePosition : utf8Encode ['A', 'B'] ≠ [] ∧ utf8Encode [Char.ofNat 0] ≠ [] := by decide
theorem witness_MessageEnciphersEachBlock : CipherReady small ∧ textToBlocks euro ≠ [] := by decide
theorem witness_MessageRoundTrip :
    CipherReady small ∧ CipherReady twin ∧
      (∀ i < 4, slotKey twin.kt twin.klen i = slotKey small.kt small.klen i) ∧
      euro.getLast? ≠ some (Char.ofNat 0) ∧ 8 = selectInitialPosition 0 (utf8Encode euro) := by decide
theorem witness_TransactionDependsOnTheEngineAlone :
    SameEngine (asked small [.read 0x08]) { asked small [.read 0x08, .hardReset] with outbox := [5] } ∧
      view (·.outbox) (step { asked small [.read 0x08, .hardReset] with outbox := [5] }) = some [5, 0x10] := by decide

end Sys2Proof.Tests
end

section
/-! The operators of 00_scope.md R12 as numbers and as bits. -/

namespace Sys2Proof.Machine

theorem shl64_toNat (a : Word) (r : Nat) : (shl64 a r).toNat = a.toNat * 2 ^ r % 2 ^ 64 := by
  rw [shl64, BitVec.toNat_shiftLeft, Nat.shiftLeft_eq]

/-- The number of `a - b` where the difference wraps and where it does not (R12's two cases). -/
theorem word_sub_toNat (a b : Word) :
    (a - b).toNat = if b.toNat ≤ a.toNat then a.toNat - b.toNat else a.toNat + 2 ^ 64 - b.toNat := by
  have ha := a.isLt
  have hb := b.isLt
  rw [BitVec.toNat_sub]
  split <;> omega

/-- Exclusive or is the sum of the two bits modulo 2. -/
theorem word_xor_bit (a b : Word) (i : Nat) :
    (a ^^^ b).getLsbD i = decide (((a.getLsbD i).toNat + (b.getLsbD i).toNat) % 2 = 1) := by
  rw [BitVec.getLsbD_xor]
  cases a.getLsbD i <;> cases b.getLsbD i <;> rfl

/-- The bits a left shift keeps in the word: the low `64 - r` bits of the number, moved up. -/
theorem mul_two_pow_mod_word {r : Nat} (n : Nat) (hr : r ≤ 64) :
    n * 2 ^ r % 2 ^ 64 = n % 2 ^ (64 - r) * 2 ^ r := by
  rw [← Nat.mul_mod_mul_right, ← pow_add, Nat.sub_add_cancel hr]

/-- The right rotation is the left rotation by the rest of the word. -/
theorem rotr64_eq_rotl64 {r : Nat} (a : Word) (hr : r ≤ 64) : rotr64 a r = rotl64 a (64 - r) := by
  rw [rotr64, rotl64, Nat.sub_sub_self hr, BitVec.or_comm]

/-- The two parts of a rotation share no bit, so joining them is adding them. -/
theorem rotl64_toNat {r : Nat} (a : Word) (hr : r ≤ 64) :
    (rotl64 a r).toNat = a.toNat * 2 ^ r % 2 ^ 64 + a.toNat / 2 ^ (64 - r) := by
  have hlow : a.toNat / 2 ^ (64 - r) < 2 ^ r := by
    rw [Nat.div_lt_iff_lt_mul (by positivity), ← pow_add, Nat.add_sub_cancel' hr]
    exact a.isLt
  rw [rotl64, BitVec.toNat_or, BitVec.toNat_shiftLeft, BitVec.toNat_ushiftRight, Nat.shiftLeft_eq,
    Nat.shiftRight_eq_div_pow, mul_two_pow_mod_word _ hr, Nat.mul_comm _ (2 ^ r), Nat.two_pow_add_eq_or_of_lt hlow]

theorem rotr64_toNat {r : Nat} (a : Word) (hr : r ≤ 64) :
    (rotr64 a r).toNat = a.toNat / 2 ^ r + a.toNat % 2 ^ r * 2 ^ (64 - r) := by
  rw [rotr64_eq_rotl64 a hr, rotl64_toNat a (Nat.sub_le ..), mul_two_pow_mod_word _ (Nat.sub_le ..),
    Nat.sub_sub_self hr, Nat.add_comm]

/-- A left rotation takes bit i from r places below, around the end of the word. -/
theorem rotl64_bit {r i : Nat} (a : Word) (hr : r ≤ 64) (hi : i < 64) :
    (rotl64 a r).getLsbD i = a.getLsbD ((i + 64 - r) % 64) := by
  rw [rotl64, BitVec.getLsbD_or, BitVec.getLsbD_shiftLeft, BitVec.getLsbD_ushiftRight]
  by_cases hir : i < r
  · have hsrc : (i + 64 - r) % 64 = 64 - r + i := by omega
    simp [hir, hsrc]
  · have hsrc : (i + 64 - r) % 64 = i - r := by omega
    have hout : a.getLsbD (64 - r + i) = false := BitVec.getLsbD_of_ge _ _ (by omega)
    simp [hi, hir, hsrc, hout]

/-- A right rotation takes bit i from r places above, around the end of the word. -/
theorem rotr64_bit {r i : Nat} (a : Word) (hr : r ≤ 64) (hi : i < 64) :
    (rotr64 a r).getLsbD i = a.getLsbD ((i + r) % 64) := by
  have hsrc : i + 64 - (64 - r) = i + r := by omega
  rw [rotr64_eq_rotl64 a hr, rotl64_bit a (Nat.sub_le ..) hi, hsrc]

/-- R12: `((i + r) - r) mod 64 = i`. -/
theorem rotr64_rotl64 {r : Nat} (a : Word) (hr : r ≤ 64) : rotr64 (rotl64 a r) r = a := by
  refine BitVec.eq_of_getLsbD_eq fun i hi => ?_
  have hback : ((i + r) % 64 + 64 - r) % 64 = i := by omega
  rw [rotr64_bit _ hr hi, rotl64_bit _ hr (Nat.mod_lt _ (by decide)), hback]

theorem rotl64_rotr64 {r : Nat} (a : Word) (hr : r ≤ 64) : rotl64 (rotr64 a r) r = a := by
  have h := rotr64_rotl64 a (Nat.sub_le 64 r)
  rwa [rotr64_eq_rotl64 _ (Nat.sub_le ..), Nat.sub_sub_self hr, ← rotr64_eq_rotl64 a hr] at h

/-- Settles O1: the two rotations are each other's by the rest of the word, so one table row carries over to the other. -/
theorem arithmeticOperatorsAreTheTables : Obligations.ArithmeticOperatorsAreTheTables := by
  intro a b
  refine ⟨fun i _ => word_xor_bit a b i, BitVec.toNat_add .., word_sub_toNat a b, BitVec.toNat_mul ..,
    fun r _ => shl64_toNat a r, fun r _ hlt => ?_⟩
  have hr : r ≤ 64 := Nat.le_of_lt hlt
  exact ⟨rotl64_toNat a hr, fun _ hi => rotl64_bit a hr hi, rotr64_toNat a hr, fun _ hi => rotr64_bit a hr hi,
    rotr64_rotl64 a hr, rotl64_rotr64 a hr⟩

end Sys2Proof.Machine
end

section
/-! What a transaction leaves and returns, by the engine, KT_CAP and the event alone (00_scope.md R19). -/

namespace Sys2Proof.Machine

/-- The operation takes engine m of configuration cfg to one next engine and returns the words `out`, whatever events wait and
whatever words were read before; it keeps these and the configuration. -/
def AnswersByEngine (m : Engine) (cfg : Config) (out : List Word) (op : State → Result) : Prop :=
  ∃ m' : Engine, ∀ es os, op ⟨m, cfg, es, os⟩ = .next ⟨m', cfg, es, os ++ out⟩

/-- How many words an event returns to the host (R13). -/
def wordsReturned : HostEvent → Nat
  | .write _ _ => 0
  | .read _ => 1
  | .hardReset => 0

/-- ENC with its two cases as a condition on KLEN; the default of `getD` stands where there is a key, and so is never taken. -/
theorem exec_enc_eq (s : State) :
    exec .enc s = unlessFaulted s (if s.klen = 0 then raiseByCommand .emptyKt .enc s
      else .next (setB ((encBlock s.b s.kt s.klen s.psn.toNat).getD 0) s)) := by
  by_cases h : s.klen = 0 <;> simp [exec, execEnc, encBlock, h]

/-- DEC with its two cases as a condition on KLEN, as `exec_enc_eq`. -/
theorem exec_dec_eq (s : State) :
    exec .dec s = unlessFaulted s (if s.klen = 0 then raiseByCommand .emptyKt .dec s
      else .next (setB ((decBlock s.b s.kt s.klen s.psn.toNat).getD 0) s)) := by
  by_cases h : s.klen = 0 <;> simp [exec, execDec, decBlock, h]

/-- Raising a fault changes the engine alone, and by what the engine held. -/
theorem raiseFault_mk (m : Engine) (c : FCode) (info : Word) :
    ∃ m' : Engine, ∀ cfg es os, raiseFault c info ⟨m, cfg, es, os⟩ = ⟨m', cfg, es, os⟩ := by
  by_cases h : m.fcode = .noFault
  · exact ⟨{ m with fcode := c, finfo := info }, fun _ _ _ => raiseFault_of_noFault h⟩
  · exact ⟨m, fun _ _ _ => raiseFault_of_faulted h⟩

section
variable {m : Engine} {cfg : Config}

/-- An operation that returns no word leaves the words read as they are. -/
theorem answersByEngine_nil {op : State → Result} :
    AnswersByEngine m cfg [] op ↔ ∃ m' : Engine, ∀ es os, op ⟨m, cfg, es, os⟩ = .next ⟨m', cfg, es, os⟩ := by
  simp [AnswersByEngine]

theorem AnswersByEngine.congr {out : List Word} {op op' : State → Result} (h : AnswersByEngine m cfg out op)
    (heq : ∀ es os, op' ⟨m, cfg, es, os⟩ = op ⟨m, cfg, es, os⟩) : AnswersByEngine m cfg out op' := by
  obtain ⟨m', h⟩ := h
  exact ⟨m', fun es os => (heq es os).trans (h es os)⟩

theorem raiseFault_answersByEngine (c : FCode) (info : Word) :
    AnswersByEngine m cfg [] fun s => .next (raiseFault c info s) := by
  obtain ⟨m', h⟩ := raiseFault_mk m c info
  exact answersByEngine_nil.2 ⟨m', fun es os => congrArg _ (h cfg es os)⟩

theorem reply_raiseFault_answersByEngine (v : Word) (c : FCode) (info : Word) :
    AnswersByEngine m cfg [v] fun s => .next (reply v (raiseFault c info s)) := by
  obtain ⟨m', h⟩ := raiseFault_mk m c info
  exact ⟨m', fun es os => congrArg (fun s => Host.Outcome.next (reply v s)) (h cfg es os)⟩

/-- The shape of every command but NOP and RESET: ignored while faulted, else its one fault under p, else a new engine. -/
theorem command_answersByEngine {op : State → Result} (p : Prop) [Decidable p] (c : FCode) (i : Instr) (m' : Engine)
    (h : ∀ es os, op ⟨m, cfg, es, os⟩ = unlessFaulted ⟨m, cfg, es, os⟩
      (if p then raiseByCommand c i ⟨m, cfg, es, os⟩ else .next ⟨m', cfg, es, os⟩)) :
    AnswersByEngine m cfg [] op := by
  by_cases h0 : m.fcode = .noFault
  · by_cases hp : p
    · refine (raiseFault_answersByEngine c (encode i)).congr fun es os => ?_
      rw [h, unlessFaulted_of_noFault h0, if_pos hp, raiseByCommand]
    · refine answersByEngine_nil.2 ⟨m', fun es os => ?_⟩
      rw [h, unlessFaulted_of_noFault h0, if_neg hp]
  · exact answersByEngine_nil.2 ⟨m, fun es os => by rw [h, unlessFaulted_of_faulted h0]⟩

theorem exec_answersByEngine (i : Instr) : AnswersByEngine m cfg [] (exec i) := by
  cases i with
  | nop => exact answersByEngine_nil.2 ⟨m, fun _ _ => rfl⟩
  | reset => exact answersByEngine_nil.2 ⟨Engine.reset cfg.ktCap, fun _ _ => rfl⟩
  | kgen n =>
    exact command_answersByEngine (n > cfg.ktCap) .lenRange (.kgen n)
      (setTable (generate m.p m.q m.s n) ⟨m, cfg, [], []⟩).toEngine fun _ _ => rfl
  | enc =>
    exact command_answersByEngine (m.klen = 0) .emptyKt .enc
      { m with b := (encBlock m.b m.kt m.klen m.psn.toNat).getD 0 } fun _ _ => exec_enc_eq _
  | dec =>
    exact command_answersByEngine (m.klen = 0) .emptyKt .dec
      { m with b := (decBlock m.b m.kt m.klen m.psn.toNat).getD 0 } fun _ _ => exec_dec_eq _
  | xfwd t j =>
    exact command_answersByEngine (m.klen = 0) .emptyKt (.xfwd t j)
      { m with b := fwd t m.b (slotKey m.kt m.klen j) } fun _ _ => rfl
  | xinv t j =>
    exact command_answersByEngine (m.klen = 0) .emptyKt (.xinv t j)
      { m with b := inv t m.b (slotKey m.kt m.klen j) } fun _ _ => rfl

theorem runCommandWord_answersByEngine (d : Word) : AnswersByEngine m cfg [] (runCommandWord d) := by
  cases hd : decode d with
  | ok i => exact (exec_answersByEngine i).congr fun _ _ => by rw [runCommandWord, hd]
  | error e => exact (raiseFault_answersByEngine .illegalCmd d).congr fun _ _ => by rw [runCommandWord, hd]

theorem hostWriteFaulted_answersByEngine (a : Addr) (d : Word) : AnswersByEngine m cfg [] (hostWriteFaulted a d) := by
  by_cases h : a = 0x00 ∧ d = 0x07
  · exact (exec_answersByEngine .reset).congr fun _ _ => if_pos h
  · exact answersByEngine_nil.2 ⟨m, fun _ _ => if_neg h⟩

/-- A register takes no written data, whatever waits, or the write changes the engine alone. -/
theorem regWrite_mk (r : Reg) (d : Word) :
    (∀ es os, regWrite r d ⟨m, cfg, es, os⟩ = none) ∨
      ∃ m' : Engine, ∀ es os, regWrite r d ⟨m, cfg, es, os⟩ = some ⟨m', cfg, es, os⟩ := by
  cases r with
  | p => exact .inr ⟨{ m with p := d }, fun _ _ => rfl⟩
  | q => exact .inr ⟨{ m with q := d }, fun _ _ => rfl⟩
  | s => exact .inr ⟨{ m with s := d }, fun _ _ => rfl⟩
  | psn => exact .inr ⟨{ m with psn := d }, fun _ _ => rfl⟩
  | b => exact .inr ⟨{ m with b := d }, fun _ _ => rfl⟩
  | _ => exact .inl fun _ _ => rfl

theorem hostWrite_answersByEngine (a : Addr) (d : Word) : AnswersByEngine m cfg [] (hostWrite a d) := by
  by_cases h0 : m.fcode = .noFault
  · cases hr : regAt cfg a with
    | none =>
      exact (raiseFault_answersByEngine .badAddr (writeInfo a)).congr fun _ _ => by simp [hostWrite, h0, hr]
    | some r =>
      by_cases hc : r = .cmd
      · exact (runCommandWord_answersByEngine d).congr fun _ _ => by simp [hostWrite, h0, hr, hc]
      · rcases regWrite_mk (m := m) (cfg := cfg) r d with hw | ⟨m', hw⟩
        · exact (raiseFault_answersByEngine .badAccess (writeInfo a)).congr fun _ _ => by
            simp [hostWrite, h0, hr, hw]
        · exact answersByEngine_nil.2 ⟨m', fun _ _ => by simp [hostWrite, h0, hr, hw]⟩
  · exact (hostWriteFaulted_answersByEngine a d).congr fun _ _ => if_neg h0

/-- What a register reads as is the engine's and KT_CAP's alone. -/
theorem regValue_mk (r : Reg) (es : List HostEvent) (os : List Word) :
    regValue r ⟨m, cfg, es, os⟩ = regValue r ⟨m, cfg, [], []⟩ := by
  cases r <;> rfl

theorem hostRead_answersByEngine (a : Addr) : ∃ v, AnswersByEngine m cfg [v] (hostRead a) := by
  cases hr : regAt cfg a with
  | none =>
    exact ⟨0, (reply_raiseFault_answersByEngine 0 .badAddr (readInfo a)).congr fun _ _ => by simp [hostRead, hr]⟩
  | some r =>
    cases hv : regValue r ⟨m, cfg, [], []⟩ with
    | none =>
      exact ⟨0, (reply_raiseFault_answersByEngine 0 .badAccess (readInfo a)).congr fun _ _ => by
        simp [hostRead, hr, regValue_mk, hv]⟩
    | some v => exact ⟨v, m, fun _ _ => by simp [hostRead, hr, regValue_mk, hv, reply]⟩

theorem serve_answersByEngine (e : HostEvent) :
    ∃ out, out.length = wordsReturned e ∧ AnswersByEngine m cfg out (serve e) := by
  cases e with
  | write a d => exact ⟨[], rfl, hostWrite_answersByEngine a d⟩
  | read a =>
    obtain ⟨v, h⟩ := hostRead_answersByEngine a
    exact ⟨[v], rfl, h⟩
  | hardReset => exact ⟨[], rfl, answersByEngine_nil.2 ⟨Engine.reset cfg.ktCap, fun _ _ => rfl⟩⟩

end

/-- Settles O58, from `serve_answersByEngine`: each kind of transaction, down to each command, answers by the engine alone. -/
theorem transactionDependsOnTheEngineAlone : Obligations.TransactionDependsOnTheEngineAlone := by
  rintro s t e es fs ⟨hcfg, heng⟩ hs ht
  obtain ⟨out, hlen, m', hserve⟩ := serve_answersByEngine (m := s.toEngine) (cfg := s.cfg) e
  refine ⟨m', out, ?_, ?_, ?_⟩
  · exact (step_of_inbox hs).trans (hserve es s.outbox)
  · have ht' : setInbox fs t = ⟨s.toEngine, s.cfg, fs, t.outbox⟩ := by rw [← heng, ← hcfg]; rfl
    rw [step_of_inbox ht, ht', hserve, hcfg]
  · cases e <;> exact hlen

end Sys2Proof.Machine
end

section
/-! Runs of an engine for which no event waits (00_scope.md R19; log entry 3). -/

namespace Sys2Proof.Machine

/-- Settles O12, by induction on the number of steps. -/
theorem engineWithoutEventsStays : Obligations.EngineWithoutEventsStays := by
  intro s k h
  induction k with
  | zero => rfl
  | succ k ih => rw [runSteps_succ, step_of_inbox_nil h, andThen_next, ih]

end Sys2Proof.Machine
end

section
/-! The invariant of 10_state.md R31: the reset state has it, every operation keeps it, and so does every step. -/

namespace Sys2Proof.Machine

open Sys2Proof.Safety

/-- R34 for every engine of a legal configuration. -/
theorem stateInv_resetOf {cfg : Config} (h : cfg.Legal) : StateInv (State.resetOf cfg) :=
  ⟨h, List.length_replicate .., Nat.zero_le _, fun j _ _ => ktEntry_replicate_zero cfg.ktCap j, fun _ => rfl⟩

theorem faultRecord_resetOf (cfg : Config) : FaultRecord (State.resetOf cfg) := rfl

/-- Settles O3: R34's values in every legal configuration, and the reference one is legal. -/
theorem resetStateMeetsTheInvariants : Obligations.ResetStateMeetsTheInvariants :=
  ⟨fun cfg hcfg => ⟨stateInv_resetOf hcfg, faultRecord_resetOf cfg⟩,
    stateInv_resetOf (by decide), faultRecord_resetOf Config.reference⟩

section
variable {s : State} (h : StateInv s)
include h

/-- The invariant speaks of KT_CAP, the key table, KLEN and the recorded fault alone. -/
theorem stateInv_of_same_table {t : State} (hcfg : t.cfg = s.cfg) (hkt : t.kt = s.kt) (hklen : t.klen = s.klen)
    (hfault : t.fcode = .noFault → t.finfo = 0) : StateInv t := by
  obtain ⟨hlegal, hlen, hle, hzero, -⟩ := h
  simp only [StateInv, hcfg, hkt, hklen]
  exact ⟨hlegal, hlen, hle, hzero, hfault⟩

theorem stateInv_recordFault {c : FCode} (info : Word) (hc : c ≠ .noFault) :
    StateInv { s with fcode := c, finfo := info } :=
  stateInv_of_same_table h rfl rfl rfl fun h0 => absurd h0 hc

theorem stateInv_raiseFault {c : FCode} (info : Word) (hc : c ≠ .noFault) : StateInv (raiseFault c info s) := by
  rcases raiseFault_cases c info s with ⟨-, heq⟩ | ⟨-, heq⟩ <;> rw [heq]
  · exact stateInv_recordFault h info hc
  · exact h

theorem stateInv_resetEngine : StateInv (resetEngine s) := stateInv_resetOf h.1

/-- A fresh table is the keys and zeros up to KT_CAP, so it has KT_CAP entries and only zeros past KLEN (R117). -/
theorem stateInv_setTable {keys : List Word} (hkeys : keys.length ≤ s.cfg.ktCap) : StateInv (setTable keys s) := by
  obtain ⟨hlegal, -, -, -, hfinfo⟩ := h
  refine ⟨hlegal, ?_, hkeys, fun j _ hj => ?_, hfinfo⟩
  · rw [setTable_kt, setTable_cfg, List.length_append, List.length_replicate, Nat.add_sub_cancel' hkeys]
  · rw [setTable_kt, ktEntry_append_zeros, ktEntry_of_length_le hj]

theorem stateInv_regWrite {r : Reg} {d : Word} {t : State} (hw : regWrite r d s = some t) : StateInv t := by
  rcases regWrite_cases hw with ⟨-, rfl⟩ | ⟨-, rfl⟩ | ⟨-, rfl⟩ | ⟨-, rfl⟩ | ⟨-, rfl⟩ <;> exact h

theorem stateInv_exec {i : Instr} {t : State} (ht : exec i s = .next t) : StateInv t := by
  rcases exec_cases ht with ⟨rfl, -⟩ | ⟨-, rfl⟩ | ⟨-, n, -, hn, rfl⟩ | ⟨-, -, -, v, rfl⟩ | ⟨-, -, rfl⟩ | ⟨-, -, -, rfl⟩
  · exact h
  · exact stateInv_resetEngine h
  · exact stateInv_setTable h (by rwa [generate_length])
  · exact h
  · exact stateInv_recordFault h _ (by decide)
  · exact stateInv_recordFault h _ (by decide)

theorem stateInv_hostRead {a : Addr} {t : State} (ht : hostRead a s = .next t) : StateInv t := by
  rcases hostRead_cases ht with ⟨r, v, -, -, rfl⟩ | ⟨-, rfl⟩ | ⟨-, rfl⟩
  · exact h
  · exact stateInv_raiseFault h _ (by decide)
  · exact stateInv_raiseFault h _ (by decide)

theorem stateInv_hostWrite {a : Addr} {d : Word} {t : State} (ht : hostWrite a d s = .next t) : StateInv t := by
  rcases hostWrite_cases ht with ⟨-, ⟨-, -, rfl⟩ | ⟨-, rfl⟩⟩ |
    ⟨-, ⟨-, rfl⟩ | ⟨r, -, -, -, rfl⟩ | ⟨r, -, hw⟩ | ⟨-, i, -, hi⟩ | ⟨-, -, rfl⟩⟩
  · exact stateInv_resetEngine h
  · exact h
  · exact stateInv_recordFault h _ (by decide)
  · exact stateInv_recordFault h _ (by decide)
  · exact stateInv_regWrite h hw
  · exact stateInv_exec h hi
  · exact stateInv_recordFault h _ (by decide)

theorem stateInv_serve {e : HostEvent} {t : State} (ht : serve e s = .next t) : StateInv t := by
  cases e with
  | write a d => exact stateInv_hostWrite h ht
  | read a => exact stateInv_hostRead h ht
  | hardReset => cases ht; exact stateInv_resetEngine h

end

/-- Settles O2: a step serves one event, or none waits and the state stays. -/
theorem stateInvariantKeptByEveryStep : Obligations.StateInvariantKeptByEveryStep := by
  intro s t h ht
  cases hin : s.inbox with
  | nil => rw [step_of_inbox_nil hin] at ht; cases ht; exact h
  | cons e es =>
    rw [step_of_inbox hin] at ht
    have hes : StateInv (setInbox es s) := h
    exact stateInv_serve hes ht

end Sys2Proof.Machine
end

section
/-! What holds in every state that a run answers (10_state.md R31). -/

namespace Sys2Proof.Machine

open Sys2Proof.Safety

/-- Every step answers a next state, of the same configuration. -/
theorem step_answers (s : State) : ∃ t, step s = .next t ∧ t.cfg = s.cfg := by
  cases hin : s.inbox with
  | nil => exact ⟨s, step_of_inbox_nil hin, rfl⟩
  | cons e es =>
    obtain ⟨out, -, m', hserve⟩ := serve_answersByEngine (m := s.toEngine) (cfg := s.cfg) e
    exact ⟨_, (step_of_inbox hin).trans (hserve es s.outbox), rfl⟩

/-- What every step keeps, every run keeps; and every run answers a state of the same configuration. -/
theorem runSteps_keeps {I : State → Prop} (hI : ∀ s t, I s → step s = .next t → I t) (k : Nat) {s : State} (h : I s) :
    ∃ t, runSteps k s = .next t ∧ t.cfg = s.cfg ∧ I t := by
  induction k generalizing s with
  | zero => exact ⟨s, rfl, rfl, h⟩
  | succ k ih =>
    obtain ⟨u, hu, hucfg⟩ := step_answers s
    obtain ⟨t, ht, htcfg, hIt⟩ := ih (hI s u h hu)
    exact ⟨t, by rw [runSteps_succ, hu, andThen_next, ht], htcfg.trans hucfg, hIt⟩

theorem FCode.code_mem (c : FCode) : c.code ∈ [0, 1, 2, 3, 4, 5] := by cases c <;> decide

theorem FCode.code_eq_zero {c : FCode} : c.code = 0 ↔ c = .noFault := by cases c <;> decide

/-- Settles O4: the invariant holds after reset, whatever waits, and every step keeps it. -/
theorem reachableStatesKeepTheTableAndFaultLaws : Obligations.ReachableStatesKeepTheTableAndFaultLaws := by
  intro cfg es k hcfg
  have hstart : StateInv { State.resetOf cfg with inbox := es } := stateInv_resetOf hcfg
  obtain ⟨t, hrun, rfl, -, -, hle, hzero, hfinfo⟩ := runSteps_keeps stateInvariantKeptByEveryStep k hstart
  exact ⟨t, hrun, rfl, hle, fun j hj hlt => hzero j hlt hj, FCode.code_mem _, fun h0 => hfinfo (FCode.code_eq_zero.1 h0)⟩

end Sys2Proof.Machine
end

section
/-! The word of STATUS (10_state.md R29), field by field, and a read of it. -/

namespace Sys2Proof.Machine

open Sys2Proof.Safety

theorem faultBit_lt (s : State) : faultBit s < 2 := by unfold faultBit; split <;> decide

theorem krdyBit_lt (s : State) : krdyBit s < 2 := by unfold krdyBit; split <;> decide

theorem FCode.code_lt (c : FCode) : c.code < 6 := by cases c <;> decide

theorem krdyBit_eq (s : State) : krdyBit s = if 1 ≤ s.klen then 1 else 0 := by
  unfold krdyBit; split <;> split <;> omega

section
variable (s : State)

theorem statusWord_toNat : (statusWord s).toNat =
    (faultBit s + 2 * krdyBit s + 16 * s.fcode.code + 256 * s.klen + 65536 * s.cfg.ktCap) % 2 ^ 64 :=
  BitVec.toNat_ofNat ..

theorem statusWord_fault : bitField (statusWord s) 0 0 = faultBit s := by
  have hf := faultBit_lt s
  simp only [bitField, natField, statusWord_toNat]; omega

theorem statusWord_krdy : bitField (statusWord s) 1 1 = krdyBit s := by
  have hf := faultBit_lt s
  have hk := krdyBit_lt s
  simp only [bitField, natField, statusWord_toNat]; omega

theorem statusWord_reserved : bitField (statusWord s) 3 2 = 0 := by
  have hf := faultBit_lt s
  have hk := krdyBit_lt s
  simp only [bitField, natField, statusWord_toNat]; omega

theorem statusWord_fcode : bitField (statusWord s) 7 4 = s.fcode.code := by
  have hf := faultBit_lt s
  have hk := krdyBit_lt s
  have hc := FCode.code_lt s.fcode
  simp only [bitField, natField, statusWord_toNat]; omega

end

section
variable {s : State} (hklen : s.klen < 256)
include hklen

theorem statusWord_klen : bitField (statusWord s) 15 8 = s.klen := by
  have hf := faultBit_lt s
  have hk := krdyBit_lt s
  have hc := FCode.code_lt s.fcode
  simp only [bitField, natField, statusWord_toNat]; omega

/-- KLEN and KT_CAP fit their bytes, so nothing of them reaches the bits above. -/
theorem statusWord_ktCap (hcap : s.cfg.ktCap < 256) :
    bitField (statusWord s) 23 16 = s.cfg.ktCap ∧ bitField (statusWord s) 63 24 = 0 := by
  have hf := faultBit_lt s
  have hk := krdyBit_lt s
  have hc := FCode.code_lt s.fcode
  simp only [bitField, natField, statusWord_toNat]; omega

end

/-- A HostRead of STATUS returns its word in every state, faulted or not (R55). -/
theorem hostRead_status (s : State) : hostRead 0x01 s = .next (reply (statusWord s) s) := rfl

/-- Settles O5: the read returns `statusWord`, and R31 bounds KLEN and KT_CAP by 240. -/
theorem statusReadGivesItsFields : Obligations.StatusReadGivesItsFields := by
  rintro s es ⟨⟨-, hcap⟩, -, hle, -, -⟩ hin
  have hklen : s.klen < 256 := by omega
  obtain ⟨hktCap, hhigh⟩ := statusWord_ktCap hklen (by omega)
  exact ⟨statusWord s, (step_of_inbox hin).trans (hostRead_status _), statusWord_fault s,
    (statusWord_krdy s).trans (krdyBit_eq s), statusWord_reserved s, statusWord_fcode s, statusWord_klen hklen,
    hktCap, hhigh⟩

end Sys2Proof.Machine
end

section
/-! The two resets, HardReset and RESET (10_state.md R34; 70_reset_and_hazards.md R260). -/

namespace Sys2Proof.Machine

/-- The exact RESET word resets the engine, faulted or not (60_exceptions.md R233, R235). -/
theorem hostWrite_resetWord (s : State) : hostWrite 0x00 0x07 s = .next (resetEngine s) := by
  by_cases h0 : s.fcode = .noFault
  · rw [hostWrite_cmd h0]; rfl
  · exact (if_neg h0).trans (if_pos ⟨rfl, rfl⟩)

/-- After reset every field of STATUS but KT_CAP is 0. -/
theorem statusWord_resetEngine (s : State) : statusWord (resetEngine s) = BitVec.ofNat 64 (65536 * s.cfg.ktCap) := by
  simp [statusWord, faultBit, krdyBit, FCode.code]

/-- Settles O39: the state it names is `resetEngine`'s, which both resets answer. -/
theorem resetLeavesEveryRegisterZero : Obligations.ResetLeavesEveryRegisterZero := by
  intro s es
  refine ⟨rfl, fun hin => ?_, fun hin => step_of_inbox hin, statusWord_resetEngine s, ktEntry_replicate_zero _, by decide⟩
  exact (step_of_inbox hin).trans (hostWrite_resetWord _)

end Sys2Proof.Machine
end

section
/-! The decoder's answer on the word that the encoder gives a command (30_encoding.md R87, R88). -/

namespace Sys2Proof

theorem bitField_ofNat {n : Nat} (h : n < 2 ^ 64) (hi lo : Nat) : bitField (BitVec.ofNat 64 n) hi lo = natField n hi lo := by
  rw [bitField, BitVec.toNat_ofNat, Nat.mod_eq_of_lt h]

section
variable {d : Word} (hhigh : bitField d 63 16 = 0)
include hhigh

theorem decode_of_kgen_opcode (hop : bitField d 7 0 = 0x01) : decode d = .ok (.kgen (bitField d 15 8)) := by
  rw [decode, if_pos hhigh, hop]; rfl

theorem decode_of_xfwd_opcode (hop : bitField d 7 0 = 0x04) : decode d = decodeX d .xfwd := by
  rw [decode, if_pos hhigh, hop]; rfl

theorem decode_of_xinv_opcode (hop : bitField d 7 0 = 0x05) : decode d = decodeX d .xinv := by
  rw [decode, if_pos hhigh, hop]; rfl

end

/-- The fields of a KGEN word (R83, R85): the opcode, and the count in bits 15:8. -/
theorem bitField_kgen {n : Nat} (hn : n ≤ 255) :
    let d := encode (.kgen n)
    bitField d 63 16 = 0 ∧ bitField d 7 0 = 0x01 ∧ bitField d 15 8 = n := by
  have hlt : 0x01 + 0x100 * n < 2 ^ 64 := by omega
  simp only [encode, bitField_ofNat hlt, natField]
  omega

/-- The fields of a format X word (R84, R86): the opcode, the transform's index in bits 9:8, the slot in bits 11:10. -/
theorem bitField_formatX {op j : Nat} (t : Transform) (hop : op < 0x100) (hj : j ≤ 3) :
    let d := BitVec.ofNat 64 (op + 0x100 * t.idx + 0x400 * j)
    bitField d 63 16 = 0 ∧ bitField d 7 0 = op ∧ bitField d 15 12 = 0 ∧ bitField d 9 8 = t.idx ∧ bitField d 11 10 = j := by
  have ht := t.idx_lt
  have hlt : op + 0x100 * t.idx + 0x400 * j < 2 ^ 64 := by omega
  simp only [bitField_ofNat hlt, natField]
  omega

/-- A well-formed format X word decodes to the transform and the slot it was made of, for both its opcodes. -/
theorem decodeX_formatX {op j : Nat} (t : Transform) (i : Transform → Nat → Instr) (hop : op < 0x100) (hj : j ≤ 3) :
    decodeX (BitVec.ofNat 64 (op + 0x100 * t.idx + 0x400 * j)) i = .ok (i t j) := by
  obtain ⟨-, -, hres, ht, hslot⟩ := bitField_formatX t hop hj
  rw [decodeX, if_pos hres, ht, hslot, Transform.ofIdx_idx]

/-- Every well-formed command is what its word decodes to. -/
theorem decode_encode {i : Instr} (h : i.wf = true) : decode (encode i) = .ok i := by
  cases i with
  | nop | enc | dec | reset => rfl
  | kgen n =>
    obtain ⟨hhigh, hop, hcount⟩ := bitField_kgen (of_decide_eq_true h)
    rw [decode_of_kgen_opcode hhigh hop, hcount]
  | xfwd t j =>
    have hj : j ≤ 3 := of_decide_eq_true h
    obtain ⟨hhigh, hop, -⟩ := bitField_formatX t (op := 0x04) (by decide) hj
    exact (decode_of_xfwd_opcode hhigh hop).trans (decodeX_formatX t _ (by decide) hj)
  | xinv t j =>
    have hj : j ≤ 3 := of_decide_eq_true h
    obtain ⟨hhigh, hop, -⟩ := bitField_formatX t (op := 0x05) (by decide) hj
    exact (decode_of_xinv_opcode hhigh hop).trans (decodeX_formatX t _ (by decide) hj)

/-- RESET has the one word 7, which the faulted engine compares with (60_exceptions.md R233). -/
theorem eq_seven_of_decode_reset {d : Word} (h : decode d = .ok .reset) : d = 0x07 := by
  obtain ⟨hhigh, hop, hbyte⟩ := decode_ok h
  have hsum := word_fields d
  exact BitVec.eq_of_toNat_eq (by rw [hsum, hhigh, hop, hbyte]; rfl)

end Sys2Proof
end

section
/-! Which register stands at an address, and what a written register reads as (20_memory.md R52, R53, R59). -/

namespace Sys2Proof.Machine

/-- The address of `KT[j]` fits 8 bits in every configuration that has the entry (R6, R51). -/
theorem regAt_ktAddr {cfg : Config} {j : Nat} (hcap : cfg.ktCap ≤ 240) (hj : j < cfg.ktCap) :
    regAt cfg (BitVec.ofNat 8 (0x10 + j)) = some (.kt j) := by
  have ha : (BitVec.ofNat 8 (0x10 + j)).toNat = 0x10 + j := by rw [BitVec.toNat_ofNat, Nat.mod_eq_of_lt (by omega)]
  rw [regAt_kt (by omega) (by omega), ha, Nat.add_sub_cancel_left]

/-- Each register stands at its own address alone. -/
theorem regAddr_of_regAt {cfg : Config} {a : Addr} {r : Reg} (h : regAt cfg a = some r) : regAddr r = a := by
  apply BitVec.eq_of_toNat_eq
  unfold regAt at h
  split at h
  case h_9 n _ _ _ _ _ _ _ _ =>
    split at h <;> cases h
    have ha := a.isLt
    rw [regAddr, BitVec.toNat_ofNat]
    omega
  all_goals cases h; symm; assumption

/-- At the five data addresses stands a register that takes written data. -/
theorem regWrite_at_data_address {a : Addr} (hlo : 0x04 ≤ a.toNat) (hhi : a.toNat ≤ 0x08) (d : Word) (s : State) :
    ∃ r t, regAt s.cfg a = some r ∧ regWrite r d s = some t := by
  unfold regAt
  interval_cases a.toNat
  · exact ⟨.p, setP d s, rfl, rfl⟩
  · exact ⟨.q, setQ d s, rfl, rfl⟩
  · exact ⟨.s, setS d s, rfl, rfl⟩
  · exact ⟨.psn, setPsn d s, rfl, rfl⟩
  · exact ⟨.b, setB d s, rfl, rfl⟩

section
variable {r : Reg} {d : Word} {s t : State} (hw : regWrite r d s = some t)
include hw

theorem regWrite_keeps_port : t.cfg = s.cfg ∧ t.inbox = s.inbox ∧ t.outbox = s.outbox := by
  rcases regWrite_cases hw with ⟨-, rfl⟩ | ⟨-, rfl⟩ | ⟨-, rfl⟩ | ⟨-, rfl⟩ | ⟨-, rfl⟩ <;> exact ⟨rfl, rfl, rfl⟩

theorem ne_cmd_of_regWrite : r ≠ .cmd := by
  rintro rfl
  cases hw

/-- The written register reads as the written word and every other one, STATUS and FINFO among them, as before. -/
theorem regValue_of_regWrite (r' : Reg) : regValue r' t = if r' = r then some d else regValue r' s := by
  rcases regWrite_cases hw with ⟨rfl, rfl⟩ | ⟨rfl, rfl⟩ | ⟨rfl, rfl⟩ | ⟨rfl, rfl⟩ | ⟨rfl, rfl⟩ <;> cases r' <;> rfl

end

end Sys2Proof.Machine
end

section
/-! What a step answers when the oldest event accesses a register: one rule for each outcome of 20_memory.md R53 to R57. -/

namespace Sys2Proof.Machine

/-- No register's value depends on the events that wait. -/
theorem regValue_setInbox (r : Reg) (es : List HostEvent) (s : State) : regValue r (setInbox es s) = regValue r s := by
  cases r <;> rfl

/-- A HostWrite to a register other than CMD: the register takes the word, or it takes none and the access is a fault. -/
theorem hostWrite_register {s : State} {a : Addr} {d : Word} {r : Reg} (h0 : s.fcode = .noFault)
    (hr : regAt s.cfg a = some r) (hne : r ≠ .cmd) :
    hostWrite a d s = .next ((regWrite r d s).getD (raiseFault .badAccess (writeInfo a) s)) := by
  rw [hostWrite, if_pos h0, hr]
  cases r with
  | cmd => exact absurd rfl hne
  | _ => rfl

section
variable {s : State} {a : Addr} {r : Reg} {es : List HostEvent}

/-- R55. -/
theorem step_read_register {v : Word} (hin : s.inbox = .read a :: es) (hr : regAt s.cfg a = some r)
    (hv : regValue r s = some v) : step s = .next { s with inbox := es, outbox := s.outbox ++ [v] } := by
  rw [step_of_inbox hin, serve, hostRead, setInbox_cfg, hr]
  simp only [regValue_setInbox, hv]
  rfl

/-- R56: CMD cannot be read. -/
theorem step_read_cmd (h0 : s.fcode = .noFault) (hin : s.inbox = .read 0x00 :: es) :
    step s = .next { s with inbox := es, fcode := .badAccess, finfo := 0, outbox := s.outbox ++ [0] } := by
  have hread : hostRead 0x00 (setInbox es s) = .next (reply 0 (raiseFault .badAccess 0 (setInbox es s))) := rfl
  rw [step_of_inbox hin, serve, hread, raiseFault_of_noFault (by exact h0)]
  rfl

/-- R57, read. -/
theorem step_read_unmapped (h0 : s.fcode = .noFault) (hin : s.inbox = .read a :: es) (hr : regAt s.cfg a = none) :
    step s = .next { s with inbox := es, fcode := .badAddr, finfo := readInfo a, outbox := s.outbox ++ [0] } := by
  rw [step_of_inbox hin, serve, hostRead, setInbox_cfg, hr]
  simp only [raiseFault_of_noFault (s := setInbox es s) h0]
  rfl

section
variable {d : Word} (h0 : s.fcode = .noFault) (hin : s.inbox = .write a d :: es)
include h0 hin

/-- R53. -/
theorem step_write_register {t : State} (hr : regAt s.cfg a = some r) (hw : regWrite r d (setInbox es s) = some t) :
    step s = .next t := by
  rw [step_of_inbox hin, serve, hostWrite_register (s := setInbox es s) h0 hr (ne_cmd_of_regWrite hw), hw, Option.getD_some]

/-- R56: a read-only register cannot be written. -/
theorem step_write_readOnly (hr : regAt s.cfg a = some r) (hne : r ≠ .cmd) (hw : regWrite r d (setInbox es s) = none) :
    step s = .next { s with inbox := es, fcode := .badAccess, finfo := writeInfo a } := by
  rw [step_of_inbox hin, serve, hostWrite_register (s := setInbox es s) h0 hr hne, hw, Option.getD_none,
    raiseFault_of_noFault (by exact h0)]
  rfl

/-- R57, write. -/
theorem step_write_unmapped (hr : regAt s.cfg a = none) :
    step s = .next { s with inbox := es, fcode := .badAddr, finfo := writeInfo a } := by
  rw [step_of_inbox hin, serve, hostWrite, if_pos (by exact h0), setInbox_cfg, hr,
    raiseFault_of_noFault (by exact h0)]
  rfl

end

end

/-- Settles O6: each of the five addresses is a data register's. -/
theorem dataRegisterTakesTheWrittenValue : Obligations.DataRegisterTakesTheWrittenValue := by
  intro s d es h0
  exact ⟨fun hin => step_write_register h0 hin (r := .p) rfl rfl, fun hin => step_write_register h0 hin (r := .q) rfl rfl,
    fun hin => step_write_register h0 hin (r := .s) rfl rfl, fun hin => step_write_register h0 hin (r := .psn) rfl rfl,
    fun hin => step_write_register h0 hin (r := .b) rfl rfl⟩

/-- Settles O8: the registers named take no written data, and CMD has no value to read. -/
theorem forbiddenAccessRaisesBadAccess : Obligations.ForbiddenAccessRaisesBadAccess := by
  intro s a d es h0
  refine ⟨fun ha hin => ?_, step_read_cmd h0⟩
  rcases ha with rfl | rfl | ⟨hlo, hhi⟩
  · exact step_write_readOnly h0 hin (r := .status) rfl (by decide) rfl
  · exact step_write_readOnly h0 hin (r := .finfo) rfl (by decide) rfl
  · exact step_write_readOnly h0 hin (regAt_kt hlo hhi) (by simp) rfl

/-- Settles O9: the addresses named are the unmapped ones. -/
theorem unmappedAddressRaisesBadAddr : Obligations.UnmappedAddressRaisesBadAddr := by
  intro s a d es h0 ha
  have hr : regAt s.cfg a = none := regAt_eq_none.2 (ha.imp_left (congrArg BitVec.toNat))
  exact ⟨fun hin => step_read_unmapped h0 hin hr, fun hin => step_write_unmapped h0 hin hr⟩

end Sys2Proof.Machine
end

section
/-! A step that serves a command word, faulted or not (20_memory.md R54; 60_exceptions.md R233). -/

namespace Sys2Proof.Machine

/-- A faulted engine ignores every command but RESET. -/
theorem exec_of_faulted {i : Instr} {s : State} (h : s.fcode ≠ .noFault) (hi : i ≠ .reset) : exec i s = .next s := by
  cases i with
  | nop => rfl
  | reset => exact absurd rfl hi
  | _ => exact unlessFaulted_of_faulted h

/-- Whatever a command does while faulted, a HostWrite of its word does: the test for the exact RESET word lets no other command
through and keeps none back that would have an effect. -/
theorem hostWrite_command {d : Word} {i : Instr} (hd : decode d = .ok i) (s : State) : hostWrite 0x00 d s = exec i s := by
  by_cases h0 : s.fcode = .noFault
  · rw [hostWrite_cmd h0, runCommandWord, hd]
  · by_cases hi : i = .reset
    · subst hi
      rw [eq_seven_of_decode_reset hd, hostWrite_resetWord]
      rfl
    · have hne : d ≠ 0x07 := by
        rintro rfl
        exact hi (Except.ok.inj (hd.symm.trans (decode_encode (i := .reset) rfl)))
      rw [hostWrite, if_neg h0, hostWriteFaulted, if_neg (fun hc => hne hc.2), exec_of_faulted h0 hi]

theorem step_command {s : State} {d : Word} {i : Instr} {es : List HostEvent} (hin : s.inbox = .write 0x00 d :: es)
    (hd : decode d = .ok i) : step s = exec i (setInbox es s) :=
  (step_of_inbox hin).trans (hostWrite_command hd _)

/-- A command changes the engine alone. -/
theorem exec_keeps_port {i : Instr} {s t : State} (h : exec i s = .next t) :
    t.inbox = s.inbox ∧ t.outbox = s.outbox ∧ t.cfg = s.cfg := by
  obtain ⟨m', hm⟩ := answersByEngine_nil.1 (exec_answersByEngine (m := s.toEngine) (cfg := s.cfg) i)
  cases h.symm.trans (hm s.inbox s.outbox)
  exact ⟨rfl, rfl, rfl⟩

/-- The fetched word is the command's own: 64 bits lose nothing of it. -/
theorem withFetchWord_encode (i : Instr) (s : State) :
    s.withFetchWord 64 (encode i).toNat = setInbox (.write 0x00 (encode i) :: s.inbox) s := by
  rw [State.withFetchWord, Nat.mod_eq_of_lt (encode i).isLt, BitVec.ofNat_toNat, BitVec.setWidth_eq]

/-- Settles O18, from `hostWrite_command` and `decode_encode`. -/
theorem stepRunsTheDecodedCommand : Obligations.StepRunsTheDecodedCommand := by
  refine ⟨fun s d i es hin hd => step_command hin hd, fun i s t h => exec_keeps_port h, fun i s hwf => ?_⟩
  rw [withFetchWord_encode]
  exact step_command rfl (decode_encode hwf)

end Sys2Proof.Machine
end

section
/-! Runs of several transactions, each complete before the next begins (20_memory.md R59, R65). -/

namespace Sys2Proof.Machine

open Sys2Proof.Safety

theorem runSteps_two {s t u : State} (hst : step s = .next t) (htu : step t = .next u) : runSteps 2 s = .next u := by
  rw [runSteps_succ, hst, andThen_next, runSteps_succ, htu, andThen_next, runSteps_zero]

/-- Settles O11, by induction on the events: by `serve_answersByEngine` the first leaves those behind it in place, and does the
same whichever they are. -/
theorem runIsTheEventsServedInOrder : Obligations.RunIsTheEventsServedInOrder := by
  intro es rest s
  induction es generalizing s with
  | nil => exact ⟨_, rfl, rfl, rfl⟩
  | cons e es ih =>
    obtain ⟨out, -, m', hserve⟩ := serve_answersByEngine (m := s.toEngine) (cfg := s.cfg) e
    obtain ⟨t, hall, hin, hrun⟩ := ih ⟨m', s.cfg, rest, s.outbox ++ out⟩
    refine ⟨t, ?_, hin, ?_⟩
    · rw [serveAll, hserve rest s.outbox, andThen_next]
      exact hall
    · rw [List.length_cons, runSteps_of_inbox (List.cons_append ..)]
      exact (congrArg (andThen · _) (hserve (es ++ rest) s.outbox)).trans hrun

/-- Settles O10: the register at a' is the one written exactly where a' is a, since each register has one address. -/
theorem readAfterWriteOfDataRegister : Obligations.ReadAfterWriteOfDataRegister := by
  intro s a a' r' d v es h0 hlo hhi hr' hv hin
  obtain ⟨r, t, hr, hw⟩ := regWrite_at_data_address hlo hhi d (setInbox (.read a' :: es) s)
  obtain ⟨hcfg, htin, htout⟩ := regWrite_keeps_port hw
  have hsame : r' = r ↔ a' = a := by
    constructor
    · rintro rfl
      exact (regAddr_of_regAt hr').symm.trans (regAddr_of_regAt hr)
    · rintro rfl
      exact Option.some.inj (hr'.symm.trans hr)
  have hvalue : regValue r' t = some (if a' = a then d else v) := by
    rw [regValue_of_regWrite hw, regValue_setInbox, hv]
    simp only [hsame]
    split <;> rfl
  have hread := step_read_register htin (hcfg ▸ hr') hvalue
  exact ⟨_, runSteps_two (step_write_register h0 hin hr hw) hread, rfl, by rw [htout]; rfl⟩

theorem exec_enc_of_encBlock {s : State} {v : Word} (h0 : s.fcode = .noFault)
    (hv : encBlock s.b s.kt s.klen s.psn.toNat = some v) : exec .enc s = .next (setB v s) := by
  rw [exec, execEnc, unlessFaulted_of_noFault h0, hv]

theorem exec_dec_of_decBlock {s : State} {v : Word} (h0 : s.fcode = .noFault)
    (hv : decBlock s.b s.kt s.klen s.psn.toNat = some v) : exec .dec s = .next (setB v s) := by
  rw [exec, execDec, unlessFaulted_of_noFault h0, hv]

/-- A command that leaves v in B, then a read of B. -/
theorem runSteps_command_read_b {s : State} {d v : Word} {i : Instr} {es : List HostEvent}
    (hin : s.inbox = .write 0x00 d :: .read 0x08 :: es) (hd : decode d = .ok i)
    (hi : exec i (setInbox (.read 0x08 :: es) s) = .next (setB v (setInbox (.read 0x08 :: es) s))) :
    runSteps 2 s = .next { s with inbox := es, b := v, outbox := s.outbox ++ [v] } :=
  runSteps_two ((step_command hin hd).trans hi) (step_read_register rfl (r := .b) rfl rfl)

/-- Settles O7: the register at each address, R31 for the keys past KLEN, and the two commands that leave their block in B. -/
theorem readableRegisterReturnsItsValue : Obligations.ReadableRegisterReturnsItsValue := by
  rintro s es ⟨⟨-, hcap⟩, -, -, hzero, -⟩
  refine ⟨fun a v hav hin => ?_, fun j hj hin => ?_, fun v hready hin hv => ?_, fun v hready hin hv => ?_⟩
  · simp only [List.mem_cons, Prod.mk.injEq, List.not_mem_nil, or_false] at hav
    rcases hav with ⟨rfl, rfl⟩ | ⟨rfl, rfl⟩ | ⟨rfl, rfl⟩ | ⟨rfl, rfl⟩ | ⟨rfl, rfl⟩ | ⟨rfl, rfl⟩ | ⟨rfl, rfl⟩
    · exact step_read_register hin (r := .status) rfl rfl
    · exact step_read_register hin (r := .finfo) rfl rfl
    · exact step_read_register hin (r := .p) rfl rfl
    · exact step_read_register hin (r := .q) rfl rfl
    · exact step_read_register hin (r := .s) rfl rfl
    · exact step_read_register hin (r := .psn) rfl rfl
    · exact step_read_register hin (r := .b) rfl rfl
  · have hread := step_read_register hin (regAt_ktAddr hcap hj) rfl
    exact ⟨hread, fun hle => by rw [hread, hzero j hj hle]⟩
  · exact runSteps_command_read_b hin (decode_encode (i := .enc) rfl) (exec_enc_of_encBlock hready.1 hv)
  · exact runSteps_command_read_b hin (decode_encode (i := .dec) rfl) (exec_dec_of_decBlock hready.1 hv)

end Sys2Proof.Machine
end

section
/-! The decoder, the encoder and the opcode map as three descriptions of the same command words (30_encoding.md R87, R88). -/

namespace Sys2Proof

/-- Settles O15. -/
theorem decodeOfEncodeIsTheInstruction : Obligations.DecodeOfEncodeIsTheInstruction :=
  fun _ hwf => decode_encode hwf

/-- A word without high bits is its opcode and its operand byte (R81). -/
theorem eq_ofNat_of_no_high_bits {d : Word} (hhigh : bitField d 63 16 = 0) :
    d = BitVec.ofNat 64 (bitField d 7 0 + 0x100 * bitField d 15 8) := by
  have hsum := word_fields d
  apply BitVec.eq_of_toNat_eq
  rw [BitVec.toNat_ofNat, Nat.mod_eq_of_lt (by omega)]
  omega

/-- The operand byte of format X (R84): the transform's index, the slot, and the reserved bits. -/
theorem operand_byte_fields (d : Word) :
    bitField d 15 8 = bitField d 9 8 + 4 * bitField d 11 10 + 0x10 * bitField d 15 12 := by
  simp only [bitField, natField]; omega

/-- A word with the fields of a format X command is the number R87 gives that command. -/
theorem eq_formatX {d : Word} {op t j : Nat} (hhigh : bitField d 63 16 = 0) (hop : bitField d 7 0 = op)
    (hres : bitField d 15 12 = 0) (ht : bitField d 9 8 = t) (hj : bitField d 11 10 = j) :
    BitVec.ofNat 64 (op + 0x100 * t + 0x400 * j) = d := by
  rw [eq_ofNat_of_no_high_bits hhigh, operand_byte_fields, hop, hres, ht, hj]
  congr 1
  omega

theorem encode_of_decode {d : Word} {i : Instr} (h : decode d = .ok i) : encode i = d := by
  cases i with
  | nop | enc | dec | reset =>
    obtain ⟨hhigh, hop, hbyte⟩ := decode_ok h
    rw [eq_ofNat_of_no_high_bits hhigh, hop, hbyte]
    rfl
  | kgen n =>
    obtain ⟨hhigh, hop, hcount⟩ := decode_ok h
    rw [eq_ofNat_of_no_high_bits hhigh, hop, hcount]
    rfl
  | xfwd t j | xinv t j =>
    obtain ⟨hhigh, hop, hres, ht, hj⟩ := decode_ok h
    exact eq_formatX hhigh hop hres ht hj

/-- The operands that the decoder reads fit their fields (R85, R86). -/
theorem wf_of_decode {d : Word} {i : Instr} (h : decode d = .ok i) : i.wf = true := by
  cases i with
  | nop | enc | dec | reset => rfl
  | kgen n =>
    obtain ⟨-, -, rfl⟩ := decode_ok h
    exact decide_eq_true (Nat.le_of_lt_succ (bitField_lt d 15 8))
  | xfwd t j | xinv t j =>
    obtain ⟨-, -, -, -, rfl⟩ := decode_ok h
    exact decide_eq_true (Nat.le_of_lt_succ (bitField_lt d 11 10))

/-- Settles O16: the fields that `decode_ok` names make up the whole word. -/
theorem encodeOfDecodeIsTheWord : Obligations.EncodeOfDecodeIsTheWord :=
  fun _ _ h => ⟨encode_of_decode h, wf_of_decode h⟩

/-- The word of every well-formed command is selected by the row that bears its mnemonic. -/
theorem encodingFitsItsRow (i : Instr) : Laws.EncodingFitsItsRow.Statement i := by
  cases i with
  | nop => exact Laws.EncodingFitsItsRow.nop
  | kgen n => exact Laws.EncodingFitsItsRow.kgen n
  | enc => exact Laws.EncodingFitsItsRow.enc
  | dec => exact Laws.EncodingFitsItsRow.dec
  | xfwd t j => exact Laws.EncodingFitsItsRow.xfwd t j
  | xinv t j => exact Laws.EncodingFitsItsRow.xinv t j
  | reset => exact Laws.EncodingFitsItsRow.reset

theorem OpcodeRow.selects_iff {r : OpcodeRow} {d : Word} : r.selects d = true ↔ d &&& r.mask = r.pattern := beq_iff_eq

/-- The row that selects the word a command was decoded from. -/
theorem row_of_decode {d : Word} {i : Instr} (h : decode d = .ok i) :
    ∃ r ∈ opcodeRows, d &&& r.mask = r.pattern ∧ r.mnemonic = i.mnemonic := by
  obtain ⟨⟨r, hr, hname, hsel⟩, -⟩ := encodingFitsItsRow i (wf_of_decode h)
  rw [encode_of_decode h] at hsel
  exact ⟨r, hr, OpcodeRow.selects_iff.1 hsel, hname⟩

theorem bitField_and (d m : Word) (hi lo : Nat) : bitField (d &&& m) hi lo = bitField d hi lo &&& bitField m hi lo := by
  simp only [bitField, natField, BitVec.toNat_and, Nat.and_div_two_pow, Nat.and_mod_two_pow]

/-- A field that the row's mask compares whole is the pattern's. -/
theorem bitField_of_row {d : Word} {r : OpcodeRow} {hi lo : Nat} (hsel : d &&& r.mask = r.pattern)
    (hmask : bitField r.mask hi lo = 2 ^ (hi + 1 - lo) - 1) : bitField d hi lo = bitField r.pattern hi lo := by
  rw [← hsel, bitField_and, hmask, Nat.and_two_pow_sub_one_eq_mod, Nat.mod_eq_of_lt (bitField_lt d hi lo)]

/-- A row that compares all 64 bits selects its pattern alone. -/
theorem eq_pattern_of_full_row {d p : Word} (hsel : d &&& 0xFFFFFFFFFFFFFFFF = p) : d = p :=
  (BitVec.and_allOnes (x := d)).symm.trans hsel

/-- Every word that a row selects decodes. -/
theorem decode_of_row {d : Word} {r : OpcodeRow} (hr : r ∈ opcodeRows) (hsel : d &&& r.mask = r.pattern) :
    ∃ i, decode d = .ok i := by
  simp only [opcodeRows, List.mem_cons, List.not_mem_nil, or_false] at hr
  rcases hr with rfl | rfl | rfl | rfl | rfl | rfl | rfl
  · exact ⟨.nop, eq_pattern_of_full_row hsel ▸ rfl⟩
  · exact ⟨_, decode_of_kgen_opcode (bitField_of_row hsel (by decide)) (bitField_of_row hsel (by decide))⟩
  · exact ⟨.enc, eq_pattern_of_full_row hsel ▸ rfl⟩
  · exact ⟨.dec, eq_pattern_of_full_row hsel ▸ rfl⟩
  · have hx := decode_of_xfwd_opcode (bitField_of_row hsel (by decide)) (bitField_of_row hsel (by decide))
    exact ⟨_, hx.trans (if_pos (bitField_of_row hsel (by decide)))⟩
  · have hx := decode_of_xinv_opcode (bitField_of_row hsel (by decide)) (bitField_of_row hsel (by decide))
    exact ⟨_, hx.trans (if_pos (bitField_of_row hsel (by decide)))⟩
  · exact ⟨.reset, eq_pattern_of_full_row hsel ▸ rfl⟩

/-- Every row compares the whole opcode. -/
theorem opcode_of_row {d : Word} {r : OpcodeRow} (hr : r ∈ opcodeRows) (hsel : d &&& r.mask = r.pattern) :
    bitField d 7 0 = bitField r.pattern 7 0 := by
  have hmask : ∀ r ∈ opcodeRows, bitField r.mask 7 0 = 2 ^ (7 + 1 - 0) - 1 := by decide
  exact bitField_of_row hsel (hmask r hr)

/-- No two rows have the same opcode. -/
theorem eq_of_opcode_eq : ∀ r ∈ opcodeRows, ∀ r' ∈ opcodeRows,
    bitField r.pattern 7 0 = bitField r'.pattern 7 0 → r = r' := by decide

/-- Settles O17: a decoded word is its command's own, which fits its row; and a row fixes every field the decoder tests, the
opcode among them. -/
theorem decoderAcceptsExactlyTheOpcodeMap : Obligations.DecoderAcceptsExactlyTheOpcodeMap := by
  intro d
  refine ⟨⟨?_, ?_⟩, fun i h => row_of_decode h, fun r hr r' hr' hsel hsel' => ?_⟩
  · rintro ⟨i, h⟩
    obtain ⟨r, hr, hsel, -⟩ := row_of_decode h
    exact ⟨r, hr, hsel⟩
  · rintro ⟨r, hr, hsel⟩
    exact decode_of_row hr hsel
  · exact eq_of_opcode_eq r hr r' hr' ((opcode_of_row hr hsel).symm.trans (opcode_of_row hr' hsel'))

/-- Settles O14: the seven commands by their encodings, and the three words each turned away at a step of R88. -/
theorem decoderReadsTheSpecsWords : Obligations.DecoderReadsTheSpecsWords :=
  ⟨decode_encode (i := .nop) rfl, decode_encode (i := .kgen 8) rfl, decode_encode (i := .enc) rfl,
    decode_encode (i := .dec) rfl, decode_encode (i := .xfwd .addk 1) rfl, decode_encode (i := .xinv .ror7 3) rfl,
    decode_encode (i := .reset) rfl, rfl, rfl, rfl⟩

end Sys2Proof
end

section
/-! No transaction fails to complete (93_implementation_defined.md part 2). -/

namespace Sys2Proof.Machine

/-- Settles O13. -/
theorem everyStepAnswersANextState : Obligations.EveryStepAnswersANextState := by
  intro s
  obtain ⟨t, ht, -⟩ := step_answers s
  exact ⟨t, ht⟩

end Sys2Proof.Machine
end

section
/-! Host scripts (30_encoding.md R93, R96): what their lines do, from the rules of the events they stand for. -/

namespace Sys2Proof.Machine

open Sys2Proof.Safety

/-- RDKT is the one line whose events depend on what the engine returns. -/
theorem lineEvents_of_ne_rdkt {l : ScriptLine} (h : l ≠ .rdkt) (k : Nat) : lineEvents k l = lineEvents 0 l := by
  cases l with
  | rdkt => exact absurd rfl h
  | _ => rfl

/-- A script without RDKT is one list of events, however its lines divide it. -/
theorem runScript_eq_serveAll {ls : List ScriptLine} (h : .rdkt ∉ ls) (s : State) :
    runScript ls s = serveAll (ls.flatMap (lineEvents 0)) s := by
  induction ls generalizing s with
  | nil => rfl
  | cons l ls ih =>
    obtain ⟨hl, hls⟩ := not_or.1 (List.mem_cons.not.1 h)
    rw [runScript, lineEvents_of_ne_rdkt (Ne.symm hl), List.flatMap_cons, serveAll_append, funext (ih hls)]

/-- A script of one line is that line's events. -/
theorem runScript_singleton (l : ScriptLine) (s : State) :
    runScript [l] s = serveAll (lineEvents (bitField (statusWord s) 15 8) l) s := by
  rw [runScript]
  cases serveAll (lineEvents (bitField (statusWord s) 15 8) l) s <;> rfl

/-- A HostRead of a register that has a value returns it and leaves the engine as it is (R55). -/
theorem hostRead_register {s : State} {a : Addr} {r : Reg} {v : Word} (hr : regAt s.cfg a = some r)
    (hv : regValue r s = some v) : hostRead a s = .next (reply v s) := by
  simp only [hostRead, hr, hv]

/-- Step 6 of R264 for one block, on an engine without a fault: the command's result is returned and stays in B. -/
theorem serveAll_blockEvents {s : State} {i : Instr} {v c : Word} (h0 : s.fcode = .noFault) (hwf : i.wf = true)
    (hi : exec i (setB v s) = .next (setB c (setB v s))) :
    serveAll (blockEvents i v) s = .next { s with b := c, outbox := s.outbox ++ [c] } := by
  have hwrite : serve (.write (regAddr .b) v) s = .next (setB v s) := hostWrite_register (r := .b) h0 rfl (by decide)
  have hcommand : serve (.write (regAddr .cmd) (encode i)) (setB v s) = .next (setB c (setB v s)) :=
    (hostWrite_command (decode_encode hwf) _).trans hi
  have hread : serve (.read (regAddr .b)) (setB c (setB v s)) = .next (reply c (setB c (setB v s))) :=
    hostRead_register (s := setB c (setB v s)) (a := regAddr .b) (r := .b) rfl rfl
  rw [blockEvents, serveAll, hwrite, andThen_next, serveAll, hcommand, andThen_next, serveAll, hread]
  rfl

/-- Reads of entries that the table has return them in order. -/
theorem serveAll_read_keys {s : State} {js : List Nat} (hcap : s.cfg.ktCap ≤ 240) (hjs : ∀ j ∈ js, j < s.cfg.ktCap) :
    serveAll (js.map fun j => .read (regAddr (.kt j))) s =
      .next { s with outbox := s.outbox ++ js.map (ktEntry s.kt) } := by
  induction js generalizing s with
  | nil => simp [serveAll]
  | cons j js ih =>
    obtain ⟨hj, hjs⟩ := List.forall_mem_cons.1 hjs
    have hread : serve (.read (regAddr (.kt j))) s = .next (reply (ktEntry s.kt j) s) :=
      hostRead_register (regAt_ktAddr hcap hj) rfl
    rw [List.map_cons, serveAll, hread, andThen_next, ih (s := reply (ktEntry s.kt j) s) hcap hjs]
    simp

/-- STATUS returns KLEN, so RDKT reads the KLEN valid entries (R96). -/
theorem runScript_rdkt {s : State} (h : StateInv s) : runScript [.rdkt] s =
    .next { s with outbox := s.outbox ++ statusWord s :: (List.range s.klen).map (ktEntry s.kt) } := by
  obtain ⟨⟨-, hcap⟩, -, hle, -, -⟩ := h
  have hstatus : serve (.read (regAddr .status)) s = .next (reply (statusWord s) s) := hostRead_status s
  have hkeys := serveAll_read_keys (s := reply (statusWord s) s) (js := List.range s.klen) hcap
    fun j hj => (List.mem_range.1 hj).trans_le hle
  rw [runScript_singleton, statusWord_klen (by omega), lineEvents, serveAll, hstatus, andThen_next, hkeys]
  simp

/-- Settles O51: GENERATE and its expansions are the same events; the block commands are step 6 of R264; RDKT is
`runScript_rdkt`. -/
theorem pseudoCommandsDoWhatTheyAbbreviate : Obligations.PseudoCommandsDoWhatTheyAbbreviate := by
  intro s
  refine ⟨fun p q sd n => ⟨?_, ?_⟩, fun hready v c => ⟨fun hc => ?_, fun hc => ?_⟩, runScript_rdkt⟩
  · rw [runScript_eq_serveAll (by simp), runScript_eq_serveAll (by simp)]
    rfl
  · rw [runScript_eq_serveAll (by simp), runScript_eq_serveAll (by simp)]
    rfl
  · rw [runScript_singleton]
    exact serveAll_blockEvents hready.1 rfl (exec_enc_of_encBlock (s := setB v s) hready.1 hc)
  · rw [runScript_singleton]
    exact serveAll_blockEvents hready.1 rfl (exec_dec_of_decBlock (s := setB v s) hready.1 hc)

end Sys2Proof.Machine
end

section
/-! The key schedule (40_key_schedule.md R110): its state at the start of an iteration, and each subkey from that state. -/

namespace Sys2Proof.Machine

/-- Step 3 of R110: the state of the next iteration. -/
def nextKeyState (q x : Word) : Word := shl64 x keyShift ^^^ q

/-- R110 iteration by iteration: subkey i is made of p, q and the state after i updates, whatever the count. -/
theorem generate_eq_map_range (p q s : Word) (n : Nat) :
    generate p q s n = (List.range n).map fun i => (p ^^^ (nextKeyState q)^[i] s) * q := by
  induction n generalizing s with
  | zero => rfl
  | succ n ih =>
    rw [generate, ← nextKeyState, ih, List.range_succ_eq_map, List.map_cons, List.map_map]
    rfl

theorem generate_getElem? (p q s : Word) {i n : Nat} (hi : i < n) :
    (generate p q s n)[i]? = some ((p ^^^ (nextKeyState q)^[i] s) * q) := by
  rw [generate_eq_map_range, List.getElem?_map, List.getElem?_range hi, Option.map_some]

theorem generate_take (p q s : Word) {n m : Nat} (h : n ≤ m) : (generate p q s m).take n = generate p q s n := by
  rw [generate_eq_map_range, generate_eq_map_range, ← List.map_take, List.take_range, Nat.min_eq_left h]

theorem word_ofNat_mod (n : Nat) : BitVec.ofNat 64 (n % 2 ^ 64) = BitVec.ofNat 64 n := by
  apply BitVec.eq_of_toNat_eq
  rw [BitVec.toNat_ofNat, BitVec.toNat_ofNat, Nat.mod_mod]

/-- Steps 1 and 2 of R110 on integers and on words. -/
theorem subkey_toNat (p q s : Nat) :
    ((BitVec.ofNat 64 p ^^^ BitVec.ofNat 64 s) * BitVec.ofNat 64 q).toNat = (p ^^^ s) % 2 ^ 64 * q % 2 ^ 64 := by
  rw [← BitVec.ofNat_xor, ← BitVec.ofNat_mul, BitVec.toNat_ofNat, Nat.mod_mul_mod]

/-- Step 3 of R110 on integers and on words. -/
theorem nextKeyState_ofNat (q s : Nat) :
    nextKeyState (BitVec.ofNat 64 q) (BitVec.ofNat 64 s) = BitVec.ofNat 64 ((s * 2 ^ keyShift ^^^ q) % 2 ^ 64) := by
  have hshift : shl64 (BitVec.ofNat 64 s) keyShift = BitVec.ofNat 64 (s * 2 ^ keyShift) := by
    apply BitVec.eq_of_toNat_eq
    rw [shl64_toNat, BitVec.toNat_ofNat, BitVec.toNat_ofNat, Nat.mod_mul_mod]
  rw [nextKeyState, hshift, ← BitVec.ofNat_xor, word_ofNat_mod]

/-- R113: the source's function on integers is the one on words, of the seeds modulo 2^64. -/
theorem generateNat_eq_generate (p q s n : Nat) :
    generateNat p q s n = (generate (BitVec.ofNat 64 p) (BitVec.ofNat 64 q) (BitVec.ofNat 64 s) n).map BitVec.toNat := by
  induction n generalizing s with
  | zero => rfl
  | succ n ih => rw [generateNat, ih, generate, List.map_cons, subkey_toNat, ← nextKeyState_ofNat, nextKeyState]

/-- Settles O19: both tables of integers are the one of the same words. -/
theorem seedsCountModuloTwoToTheSixtyFour : Obligations.SeedsCountModuloTwoToTheSixtyFour := by
  intro p q s n
  refine ⟨?_, generateNat_eq_generate p q s n⟩
  rw [generateNat_eq_generate, generateNat_eq_generate, word_ofNat_mod, word_ofNat_mod, word_ofNat_mod]

/-- Settles O20: on words by `generate_take`, on integers through `generateNat_eq_generate`. -/
theorem shorterTableIsAPrefix : Obligations.ShorterTableIsAPrefix := by
  intro n m h
  refine ⟨fun p q s => ⟨?_, ?_⟩, fun p q s => (generate_take p q s h).symm⟩
  · rw [generateNat_eq_generate, generateNat_eq_generate, ← List.map_take, generate_take _ _ _ h]
  · rw [generateNat_eq_generate, List.length_map, generate_length]

/-- The closed form of R116: s shifted i times, and one term in q for each update before iteration i. -/
def closedKeyState (q s : Word) (i : Nat) : Word :=
  (List.range i).foldl (fun acc m => acc ^^^ q <<< (3 * m)) (s <<< (3 * i))

/-- A fold of exclusive ors begins where it is told: what is joined to its start is joined to its value. -/
theorem foldl_xor_start (g : Nat → Word) (ms : List Nat) (a b : Word) :
    ms.foldl (fun acc m => acc ^^^ g m) (a ^^^ b) = a ^^^ ms.foldl (fun acc m => acc ^^^ g m) b := by
  rw [← List.foldl_map (f := g) (g := (· ^^^ ·)), ← List.foldl_map (f := g) (g := (· ^^^ ·)), List.foldl_assoc]

/-- One update before i more of them: the shift distributes over the exclusive or, and the new term in q joins the others. -/
theorem closedKeyState_nextKeyState (q s : Word) (i : Nat) :
    closedKeyState q (nextKeyState q s) i = closedKeyState q s (i + 1) := by
  have hstart : nextKeyState q s <<< (3 * i) = q <<< (3 * i) ^^^ s <<< (3 * (i + 1)) := by
    rw [nextKeyState, shl64, BitVec.shiftLeft_xor_distrib, ← BitVec.shiftLeft_add, BitVec.xor_comm, Nat.mul_succ,
      Nat.add_comm]
  rw [closedKeyState, closedKeyState, hstart, foldl_xor_start, List.range_succ, List.foldl_append, List.foldl_cons,
    List.foldl_nil, BitVec.xor_comm]

theorem nextKeyState_iterate (q s : Word) (i : Nat) : (nextKeyState q)^[i] s = closedKeyState q s i := by
  induction i generalizing s with
  | zero => rw [Function.iterate_zero_apply]; simp [closedKeyState]
  | succ i ih => rw [Function.iterate_succ_apply, ih, closedKeyState_nextKeyState]

/-- From iteration 22 on every bit of s is shifted out. -/
theorem closedKeyState_of_le {i : Nat} (hi : 22 ≤ i) (q s s' : Word) : closedKeyState q s' i = closedKeyState q s i := by
  have hout : 64 ≤ 3 * i := by omega
  rw [closedKeyState, closedKeyState, BitVec.shiftLeft_eq_zero hout, BitVec.shiftLeft_eq_zero hout]

/-- Three zeros enter at bit 0 before q is joined. -/
theorem nextKeyState_low_bits (q x : Word) : (nextKeyState q x).toNat % 2 ^ keyShift = q.toNat % 2 ^ keyShift := by
  have hzeros : (shl64 x keyShift).toNat % 2 ^ keyShift = 0 := by
    rw [shl64_toNat, mul_two_pow_mod_word _ (by decide), Nat.mul_mod_left]
  rw [nextKeyState, BitVec.toNat_xor, Nat.xor_mod_two_pow, hzeros, Nat.zero_xor]

/-- Settles O21: the state after i updates has the closed form, and for i >= 1 it is one update of the state before. -/
theorem subkeysFollowTheClosedForm : Obligations.SubkeysFollowTheClosedForm := by
  intro p q s i
  refine ⟨nextKeyState_iterate q s i, fun n hi => ?_, fun hi s' => closedKeyState_of_le hi q s s', fun hi => ?_⟩
  · exact (generate_getElem? p q s hi).trans (by rw [nextKeyState_iterate]; rfl)
  · obtain ⟨k, rfl⟩ := Nat.exists_eq_add_of_le' hi
    have hlast : closedKeyState q s (k + 1) = nextKeyState q ((nextKeyState q)^[k] s) := by
      rw [← nextKeyState_iterate, Function.iterate_succ_apply']
    exact (congrArg (·.toNat % 8) hlast).trans (nextKeyState_low_bits q _)

/-- An entry of the table that `Generate` fills: its subkey, and 0 past the last one. -/
theorem ktEntry_generate (p q s : Word) (n j : Nat) :
    ktEntry (generate p q s n) j = if j < n then (p ^^^ (nextKeyState q)^[j] s) * q else 0 := by
  split
  · next hj => rw [ktEntry, List.getD_eq_getElem?_getD, generate_getElem? p q s hj, Option.getD_some]
  · next hj => exact ktEntry_of_length_le (by rw [generate_length]; exact Nat.le_of_not_lt hj)

end Sys2Proof.Machine
end

section
/-! The command KGEN (40_key_schedule.md R117, R118): the table it leaves, its fault, and its repetition. -/

namespace Sys2Proof.Machine

section
variable {n : Nat} {s : State} (h0 : s.fcode = .noFault)
include h0

theorem exec_kgen_of_le (hn : n ≤ s.cfg.ktCap) : exec (.kgen n) s = .next (setTable (generate s.p s.q s.s n) s) := by
  rw [exec, execKgen, unlessFaulted_of_noFault h0, if_neg (Nat.not_lt_of_le hn)]

/-- R224. -/
theorem exec_kgen_of_gt (hn : s.cfg.ktCap < n) :
    exec (.kgen n) s = .next { s with fcode := .lenRange, finfo := encode (.kgen n) } := by
  rw [exec, execKgen, unlessFaulted_of_noFault h0, if_pos hn, raiseByCommand, raiseFault_of_noFault h0]

/-- What KGEN n with n <= KT_CAP answers is the fresh table. -/
theorem eq_setTable_of_exec_kgen {t : State} (hn : n ≤ s.cfg.ktCap) (ht : exec (.kgen n) s = .next t) :
    t = setTable (generate s.p s.q s.s n) s :=
  Host.Outcome.next.inj (ht.symm.trans (exec_kgen_of_le h0 hn))

end

/-- R222: a word that is no command is recorded, and nothing else changes. -/
theorem step_undecodable {s : State} {d : Word} {e : DecodeReject} {es : List HostEvent} (h0 : s.fcode = .noFault)
    (hin : s.inbox = .write 0x00 d :: es) (hd : decode d = .error e) :
    step s = .next { s with inbox := es, fcode := .illegalCmd, finfo := d } := by
  rw [step_of_inbox hin, serve, hostWrite_cmd (s := setInbox es s) h0, runCommandWord, hd,
    raiseFault_of_noFault (s := setInbox es s) h0]
  rfl

/-- R88 step 1: no command has a bit of d[63:16]. -/
theorem decode_of_high_bits {d : Word} (hhigh : bitField d 63 16 ≠ 0) : decode d = .error .reservedHighBits := if_neg hhigh

theorem setTable_kt_length {keys : List Word} {s : State} (hkeys : keys.length ≤ s.cfg.ktCap) :
    (setTable keys s).kt.length = s.cfg.ktCap := by
  rw [setTable_kt, List.length_append, List.length_replicate, Nat.add_sub_cancel' hkeys]

theorem ktEntry_setTable (keys : List Word) (s : State) (j : Nat) : ktEntry (setTable keys s).kt j = ktEntry keys j :=
  ktEntry_append_zeros keys _ j

/-- Settles O22: the decoder's answers by `decode_encode` and `decode_of_high_bits`, the table by `ktEntry_generate`. -/
theorem kgenFillsTheKeyTable : Obligations.KgenFillsTheKeyTable := by
  intro n s h0
  refine ⟨fun hn => decode_encode (i := .kgen n) (decide_eq_true hn),
    fun d es hin _ hhigh => step_undecodable h0 hin (decode_of_high_bits hhigh), fun hn => ?_, exec_kgen_of_gt h0⟩
  have hlen : (generate s.p s.q s.s n).length = n := generate_length ..
  refine ⟨_, exec_kgen_of_le h0 hn, ?_, setTable_kt_length (hlen.trans_le hn), fun j hj => ?_, fun j hj _ => ?_, ?_⟩
  · rw [setTable, hlen]
  · rw [ktEntry_setTable, ktEntry_generate, if_pos hj]
    rfl
  · rw [ktEntry_setTable, ktEntry_generate, if_neg (Nat.not_lt_of_le hj)]
  · rw [statusWord_krdy, krdyBit_eq, setTable_klen, hlen]

/-- R118 point 6: the second KGEN reads the same seeds and discards the first one's table; after LEN_RANGE it is ignored. -/
theorem exec_kgen_again {n : Nat} {s t : State} (h : exec (.kgen n) s = .next t) : exec (.kgen n) t = .next t := by
  by_cases h0 : s.fcode = .noFault
  · by_cases hn : n ≤ s.cfg.ktCap
    · obtain rfl := eq_setTable_of_exec_kgen h0 hn h
      exact exec_kgen_of_le (s := setTable (generate s.p s.q s.s n) s) h0 hn
    · rw [exec_kgen_of_gt h0 (Nat.lt_of_not_le hn)] at h
      cases h
      exact exec_of_faulted (by simp) (by simp)
  · cases h.symm.trans (exec_of_faulted h0 (by simp))
    exact h

/-- Settles O23: the table is made of the seeds and KT_CAP alone. -/
theorem kgenIsDeterminedByTheSeeds : Obligations.KgenIsDeterminedByTheSeeds := by
  refine ⟨fun n s t h => exec_kgen_again h, fun n s u s' u' hs0 hu0 hn hcfg hp hq hs hs' hu' => ?_⟩
  obtain rfl := eq_setTable_of_exec_kgen hs0 hn hs'
  obtain rfl := eq_setTable_of_exec_kgen hu0 (hcfg.symm ▸ hn) hu'
  simp only [setTable_kt, setTable_klen, hcfg, hp, hq, hs, and_self]

/-- Settles O24: the second table is made of the same subkeys, fewer of them. -/
theorem shorterKgenKeepsTheFirstKeys : Obligations.ShorterKgenKeepsTheFirstKeys := by
  intro m n s t u h0 hmn hn ht hu
  obtain rfl := eq_setTable_of_exec_kgen h0 hn ht
  obtain rfl := eq_setTable_of_exec_kgen (s := setTable (generate s.p s.q s.s n) s) h0 (hmn.le.trans hn) hu
  refine ⟨fun j hj => ?_, fun j hj _ => ?_, generate_length ..⟩
  · simp only [ktEntry_setTable, ktEntry_generate, if_pos hj, if_pos (hj.trans hmn), setTable_p, setTable_q, setTable_s]
  · rw [ktEntry_setTable, ktEntry_generate, if_neg (Nat.not_lt_of_le hj)]

end Sys2Proof.Machine
end

section
/-! The four transforms and their inverses (41_elementary_transforms.md R130 to R140), and the commands XFWD and XINV that apply
one of them to B (R141, R142). -/

namespace Sys2Proof.Machine

open Sys2Proof.Safety

theorem inv_fwd (t : Transform) (x k : Word) : inv t (fwd t x k) k = x := by
  cases t with
  | xork => rw [fwd, inv, BitVec.xor_assoc, BitVec.xor_self, BitVec.xor_zero]
  | rol5 => exact rotr64_rotl64 x (by decide)
  | addk => exact BitVec.add_sub_cancel x k
  | ror7 => exact rotl64_rotr64 x (by decide)

theorem fwd_inv (t : Transform) (x k : Word) : fwd t (inv t x k) k = x := by
  cases t with
  | xork => rw [fwd, inv, BitVec.xor_assoc, BitVec.xor_self, BitVec.xor_zero]
  | rol5 => exact rotl64_rotr64 x (by decide)
  | addk => exact BitVec.sub_add_cancel x k
  | ror7 => exact rotr64_rotl64 x (by decide)

/-- Settles O25: each of the two is the other's two-sided inverse. -/
theorem transformsAreInverseBijections : Obligations.TransformsAreInverseBijections := fun t k =>
  ⟨fun x => ⟨inv_fwd t x k, fwd_inv t x k⟩,
    Function.bijective_iff_has_inverse.2 ⟨fun x => inv t x k, (inv_fwd t · k), (fwd_inv t · k)⟩,
    Function.bijective_iff_has_inverse.2 ⟨fun x => fwd t x k, (fwd_inv t · k), (inv_fwd t · k)⟩⟩

section
variable {t : Transform} (ht : t = .rol5 ∨ t = .ror7) (x k k' : Word)
include ht

theorem fwd_rotation_key : fwd t x k = fwd t x k' := by
  rcases ht with rfl | rfl <;> rfl

theorem inv_rotation_key : inv t x k = inv t x k' := by
  rcases ht with rfl | rfl <;> rfl

end

/-- R223: without a key every cipher command is a fault, an XFWD or XINV of a rotation, which reads none, among them. -/
theorem exec_of_empty {i : Instr} {s : State} (h0 : s.fcode = .noFault) (hkey : needsKey i = true) (hk : s.klen = 0) :
    exec i s = .next { s with fcode := .emptyKt, finfo := encode i } := by
  have hfault : unlessFaulted s (raiseByCommand .emptyKt i s) = .next { s with fcode := .emptyKt, finfo := encode i } := by
    rw [unlessFaulted_of_noFault h0, raiseByCommand, raiseFault_of_noFault h0]
  cases i with
  | nop | kgen | reset => cases hkey
  | enc => rw [exec_enc_eq, if_pos hk, hfault]
  | dec => rw [exec_dec_eq, if_pos hk, hfault]
  | xfwd t j => rw [exec, execXfwd, if_pos hk, hfault]
  | xinv t j => rw [exec, execXinv, if_pos hk, hfault]

section
variable {s : State} (t : Transform) (j : Nat)

theorem exec_xfwd_of_ready (h : CipherReady s) :
    exec (.xfwd t j) s = .next (setB (fwd t s.b (slotKey s.kt s.klen j)) s) := by
  obtain ⟨h0, hk⟩ := h
  rw [exec, execXfwd, unlessFaulted_of_noFault h0, if_neg (Nat.ne_of_gt hk)]

theorem exec_xinv_of_ready (h : CipherReady s) :
    exec (.xinv t j) s = .next (setB (inv t s.b (slotKey s.kt s.klen j)) s) := by
  obtain ⟨h0, hk⟩ := h
  rw [exec, execXinv, unlessFaulted_of_noFault h0, if_neg (Nat.ne_of_gt hk)]

/-- R142: neither command changes the key that the other one reads. -/
theorem exec_xfwd_then_xinv (h : CipherReady s) : andThen (exec (.xfwd t j) s) (exec (.xinv t j)) = .next s := by
  rw [exec_xfwd_of_ready t j h, andThen_next,
    exec_xinv_of_ready t j (s := setB (fwd t s.b (slotKey s.kt s.klen j)) s) h, setB_b, setB_kt, setB_klen, inv_fwd]
  rfl

theorem exec_xinv_then_xfwd (h : CipherReady s) : andThen (exec (.xinv t j) s) (exec (.xfwd t j)) = .next s := by
  rw [exec_xinv_of_ready t j h, andThen_next,
    exec_xfwd_of_ready t j (s := setB (inv t s.b (slotKey s.kt s.klen j)) s) h, setB_b, setB_kt, setB_klen, fwd_inv]
  rfl

end

/-- Settles O26: both engines are ready, and the blocks they are left with differ in the key of a rotation alone. -/
theorem rotationsIgnoreTheKey : Obligations.RotationsIgnoreTheKey := by
  intro s kt j j' h0 hk t ht
  have hready : CipherReady s := ⟨h0, hk⟩
  have hready' : CipherReady { s with kt := kt } := ⟨h0, hk⟩
  refine ⟨fun x k k' => ⟨fwd_rotation_key ht x k k', inv_rotation_key ht x k k'⟩,
    ⟨_, exec_xfwd_of_ready t j hready, ?_⟩, ⟨_, exec_xinv_of_ready t j hready, ?_⟩⟩
  · rw [exec_xfwd_of_ready t j' hready', fwd_rotation_key ht s.b _ (slotKey s.kt s.klen j)]
    rfl
  · rw [exec_xinv_of_ready t j' hready', inv_rotation_key ht s.b _ (slotKey s.kt s.klen j)]
    rfl

section
variable {t : Nat} (ht : t < 4) (j : Nat)
include ht

theorem encode_xfwd_ofIdx :
    encode (.xfwd (Transform.ofIdx t) j) = BitVec.ofNat 64 (0x04 + 0x100 * t + 0x400 * j) := by
  rw [encode, Transform.idx_ofIdx, Nat.mod_eq_of_lt ht]

theorem encode_xinv_ofIdx :
    encode (.xinv (Transform.ofIdx t) j) = BitVec.ofNat 64 (0x05 + 0x100 * t + 0x400 * j) := by
  rw [encode, Transform.idx_ofIdx, Nat.mod_eq_of_lt ht]

end

/-- R222, for format X: an opcode that `decodeX` reads, with a reserved bit set at step 1 or at step 5 of R88. -/
theorem step_formatX_reserved {s : State} {d : Word} {es : List HostEvent} {i : Transform → Nat → Instr}
    (h0 : s.fcode = .noFault) (hin : s.inbox = .write 0x00 d :: es)
    (hformat : bitField d 63 16 = 0 → decode d = decodeX d i) (hbits : bitField d 15 12 ≠ 0 ∨ bitField d 63 16 ≠ 0) :
    step s = .next { s with inbox := es, fcode := .illegalCmd, finfo := d } := by
  by_cases hhigh : bitField d 63 16 = 0
  · have hres : bitField d 15 12 ≠ 0 := hbits.resolve_right (not_not_intro hhigh)
    exact step_undecodable h0 hin ((hformat hhigh).trans (if_neg hres))
  · exact step_undecodable h0 hin (decode_of_high_bits hhigh)

/-- Settles O27: R141's word, reserved bits and fault; on a ready engine the four formulas are `fwd` at each index. -/
theorem xfwdAppliesOneForwardTransform : Obligations.XfwdAppliesOneForwardTransform := by
  intro s j h0
  refine ⟨fun t ht hj => ?_, fun d es hin hop => step_formatX_reserved h0 hin (decode_of_xfwd_opcode · hop),
    fun hk => ?_, fun hk t ht => ?_⟩
  · rw [← encode_xfwd_ofIdx ht]
    exact decode_encode (decide_eq_true (Nat.le_of_lt_succ hj))
  · have hexec (t : Transform) := exec_xfwd_of_ready t j (s := s) ⟨h0, hk⟩
    exact ⟨hexec _, hexec _, hexec _, hexec _⟩
  · rw [exec_of_empty h0 rfl hk, encode_xfwd_ofIdx ht]

/-- Settles O28, as O27 with `inv`; the two commands undo each other as the transforms do. -/
theorem xinvAppliesOneInverseTransform : Obligations.XinvAppliesOneInverseTransform := by
  intro s j h0
  refine ⟨fun t ht hj => ?_, fun d es hin hop => step_formatX_reserved h0 hin (decode_of_xinv_opcode · hop),
    fun hk => ?_, fun hk t ht => ?_⟩
  · rw [← encode_xinv_ofIdx ht]
    exact decode_encode (decide_eq_true (Nat.le_of_lt_succ hj))
  · have hready : CipherReady s := ⟨h0, hk⟩
    have hexec (t : Transform) := exec_xinv_of_ready t j hready
    exact ⟨hexec _, hexec _, hexec _, hexec _,
      fun t => ⟨exec_xfwd_then_xinv t j hready, exec_xinv_then_xfwd t j hready⟩⟩
  · rw [exec_of_empty h0 rfl hk, encode_xinv_ofIdx ht]

end Sys2Proof.Machine
end

section
/-! The pipelines EncBlock and DecBlock (42_block_cipher.md R150 to R158), slot by slot. -/

namespace Sys2Proof

/-- The transform of a slot depends on the position modulo 4 alone. -/
theorem Transform.ofIdx_add_congr {psn psn' : Nat} (h : psn' % 4 = psn % 4) (i : Nat) :
    Transform.ofIdx (psn' + i) = Transform.ofIdx (psn + i) := by
  have hsum : (psn' + i) % 4 = (psn + i) % 4 := by omega
  rw [← Transform.ofIdx_mod, hsum, Transform.ofIdx_mod]

end Sys2Proof

namespace Sys2Proof.Machine

/-- R158, with `decBlock_eq_none_iff`. -/
theorem encBlock_eq_none_iff {b : Word} {kt : List Word} {len psn : Nat} : encBlock b kt len psn = none ↔ len = 0 := by
  simp [encBlock]

theorem decBlock_eq_none_iff {c : Word} {kt : List Word} {len psn : Nat} : decBlock c kt len psn = none ↔ len = 0 := by
  simp [decBlock]

/-- Settles O33. -/
theorem emptyTableGivesNoBlock : Obligations.EmptyTableGivesNoBlock :=
  fun _ _ _ _ => ⟨encBlock_eq_none_iff, decBlock_eq_none_iff⟩

section
variable {kt kt' : List Word} {len len' psn psn' : Nat} (hlen : len' = 0 ↔ len = 0) (hpsn : psn' % 4 = psn % 4)
  (hkeys : len ≠ 0 → ∀ i < 4, slotKey kt' len' i = slotKey kt len i)
include hlen hpsn hkeys

/-- All that a block depends on besides its own value: the position modulo 4 and the keys of the four slots. -/
theorem encBlock_congr (b : Word) : encBlock b kt' len' psn' = encBlock b kt len psn := by
  by_cases h : len = 0
  · rw [encBlock_eq_none_iff.2 h, encBlock_eq_none_iff.2 (hlen.2 h)]
  · have hslot : ∀ i < 4, ∀ v, encSlot kt' len' psn' i v = encSlot kt len psn i v := fun i hi v => by
      rw [encSlot, encSlot, hkeys h i hi, Transform.ofIdx_add_congr hpsn]
    rw [encBlock_of_pos h, encBlock_of_pos (mt hlen.1 h)]
    simp [hslot]

theorem decBlock_congr (c : Word) : decBlock c kt' len' psn' = decBlock c kt len psn := by
  by_cases h : len = 0
  · rw [decBlock_eq_none_iff.2 h, decBlock_eq_none_iff.2 (hlen.2 h)]
  · have hslot : ∀ i < 4, ∀ w, decSlot kt' len' psn' i w = decSlot kt len psn i w := fun i hi w => by
      rw [decSlot, decSlot, hkeys h i hi, Transform.ofIdx_add_congr hpsn]
    rw [decBlock_of_pos h, decBlock_of_pos (mt hlen.1 h)]
    simp [hslot]

end

section
variable {kt : List Word} {len psn r : Nat} (hlen : 1 ≤ len) (hr : psn % 4 = r)
include hlen hr

/-- The slots of the position's remainder. -/
theorem encBlock_of_mod (b : Word) : encBlock b kt len psn =
    some (encSlot kt len r 3 (encSlot kt len r 2 (encSlot kt len r 1 (encSlot kt len r 0 b)))) := by
  subst hr
  rw [← encBlock_of_pos (Nat.ne_of_gt hlen)]
  exact encBlock_congr Iff.rfl (Nat.mod_mod psn 4).symm (fun _ _ _ => rfl) b

theorem decBlock_of_mod (c : Word) : decBlock c kt len psn =
    some (decSlot kt len r 0 (decSlot kt len r 1 (decSlot kt len r 2 (decSlot kt len r 3 c)))) := by
  subst hr
  rw [← decBlock_of_pos (Nat.ne_of_gt hlen)]
  exact decBlock_congr Iff.rfl (Nat.mod_mod psn 4).symm (fun _ _ _ => rfl) c

end

/-- Settles O29: for a remainder given as a numeral each slot's transform is known, and the row of R153 is the four slots. -/
theorem pipelineOfEachPosition : Obligations.PipelineOfEachPosition := by
  intro b kt len psn hlen
  have hrow {r : Nat} (hr : psn % 4 = r) :=
    And.intro (encBlock_of_mod (kt := kt) hlen hr b) (decBlock_of_mod (kt := kt) hlen hr b)
  exact ⟨hrow, hrow, hrow, hrow⟩

/-- Settles O31: a slot's key stands among the first len entries, and, since there are four slots, among the first four. -/
theorem onlyTheFirstFourKeysAreUsed : Obligations.OnlyTheFirstFourKeysAreUsed := by
  refine ⟨fun b kt kt' len psn h => ?_, fun kt => ?_⟩
  · have hkeys : len ≠ 0 → ∀ i < 4, slotKey kt' len i = slotKey kt len i := fun hlen i hi =>
      h _ (Nat.lt_min.2 ⟨Nat.mod_lt i (Nat.pos_of_ne_zero hlen), (Nat.mod_le i len).trans_lt hi⟩)
    exact ⟨encBlock_congr Iff.rfl rfl hkeys b, decBlock_congr Iff.rfl rfl hkeys b⟩
  · refine ⟨fun i _ => by rw [slotKey, Nat.mod_one], rfl, rfl, rfl, rfl, rfl, rfl, rfl, rfl, fun len hlen i hi => ?_⟩
    rw [slotKey, Nat.mod_eq_of_lt (hi.trans_le hlen)]

section
variable (kt : List Word) (len psn i : Nat) (v : Word)

@[simp] theorem decSlot_encSlot : decSlot kt len psn i (encSlot kt len psn i v) = v := inv_fwd ..

@[simp] theorem encSlot_decSlot : encSlot kt len psn i (decSlot kt len psn i v) = v := fwd_inv ..

end

section
variable {kt : List Word} {len psn : Nat} (hlen : 1 ≤ len)
include hlen

theorem exists_encBlock (b : Word) : ∃ c, encBlock b kt len psn = some c := ⟨_, encBlock_of_pos (Nat.ne_of_gt hlen)⟩

theorem exists_decBlock (c : Word) : ∃ b, decBlock c kt len psn = some b := ⟨_, decBlock_of_pos (Nat.ne_of_gt hlen)⟩

/-- R156: the slots undo each other from the middle outward. -/
theorem encBlock_eq_some_iff {b c : Word} : encBlock b kt len psn = some c ↔ decBlock c kt len psn = some b := by
  rw [encBlock_of_pos (Nat.ne_of_gt hlen), decBlock_of_pos (Nat.ne_of_gt hlen), Option.some_inj, Option.some_inj]
  constructor
  · rintro rfl
    simp only [decSlot_encSlot]
  · rintro rfl
    simp only [encSlot_decSlot]

end

/-- Settles O32: `encBlock_eq_some_iff` makes each claim about the one function a claim that the other has exactly one value. -/
theorem blockCipherRoundTrip : Obligations.BlockCipherRoundTrip := by
  intro kt len psn hlen
  refine ⟨fun b => ?_, fun c => ?_, fun c => ?_, fun b => ?_⟩
  · obtain ⟨c, hc⟩ := exists_encBlock (kt := kt) (psn := psn) hlen b
    rw [hc, Option.bind_some, (encBlock_eq_some_iff hlen).1 hc]
  · obtain ⟨b, hb⟩ := exists_decBlock (kt := kt) (psn := psn) hlen c
    rw [hb, Option.bind_some, (encBlock_eq_some_iff hlen).2 hb]
  · obtain ⟨b, hb⟩ := exists_decBlock (kt := kt) (psn := psn) hlen c
    simp only [encBlock_eq_some_iff hlen, hb, Option.some_inj, existsUnique_eq']
  · obtain ⟨c, hc⟩ := exists_encBlock (kt := kt) (psn := psn) hlen b
    simp only [← encBlock_eq_some_iff hlen, hc, Option.some_inj, existsUnique_eq']

theorem rotr64_rotr64 {r r' : Nat} (a : Word) (h : r + r' ≤ 64) : rotr64 (rotr64 a r) r' = rotr64 a (r + r') := by
  refine BitVec.eq_of_getLsbD_eq fun i hi => ?_
  have hsrc : ((i + r') % 64 + r) % 64 = (i + (r + r')) % 64 := by omega
  rw [rotr64_bit _ (by omega) hi, rotr64_bit _ (by omega) (Nat.mod_lt _ (by decide)), rotr64_bit _ h hi, hsrc]

/-- The two rotations together, in the order of the positions 0 and 1. -/
theorem rotr64_rorAmount_rotl64_rolAmount (a : Word) : rotr64 (rotl64 a rolAmount) rorAmount = rotr64 a 2 := by
  have hsplit (x : Word) : rotr64 x rorAmount = rotr64 (rotr64 x rolAmount) 2 :=
    (rotr64_rotr64 (r := rolAmount) (r' := 2) x (by decide)).symm
  rw [hsplit, rotr64_rotl64 a (by decide)]

/-- The two rotations together, in the order of the positions 2 and 3. -/
theorem rotl64_rolAmount_rotr64_rorAmount (a : Word) : rotl64 (rotr64 a rorAmount) rolAmount = rotr64 a 2 := by
  have hsplit : rotr64 a rorAmount = rotr64 (rotr64 a 2) rolAmount :=
    (rotr64_rotr64 (r := 2) (r' := rolAmount) a (by decide)).symm
  rw [hsplit, rotl64_rotr64 _ (by decide)]

section
variable {kt : List Word} {len psn : Nat} (hlen : 1 ≤ len) (hzero : ∀ j < len, ktEntry kt j = 0)
include hlen hzero

/-- With zeros for keys only the two rotations are left of each row of R153 (R159's corner case). -/
theorem encBlock_of_zero_keys (b : Word) : encBlock b kt len psn = some (rotr64 b 2) := by
  have hkey (i : Nat) : ktEntry kt (i % len) = 0 := hzero _ (Nat.mod_lt i hlen)
  obtain ⟨row0, row1, row2, row3⟩ := pipelineOfEachPosition b kt len psn hlen
  simp only [hkey, BitVec.xor_zero, BitVec.add_zero, BitVec.ofNat_eq_ofNat] at row0 row1 row2 row3
  have hpsn : psn % 4 = 0 ∨ psn % 4 = 1 ∨ psn % 4 = 2 ∨ psn % 4 = 3 := by omega
  rcases hpsn with h | h | h | h
  · rw [(row0 h).1, rotr64_rorAmount_rotl64_rolAmount]
  · rw [(row1 h).1, rotr64_rorAmount_rotl64_rolAmount]
  · rw [(row2 h).1, rotl64_rolAmount_rotr64_rorAmount]
  · rw [(row3 h).1, rotl64_rolAmount_rotr64_rorAmount]

theorem decBlock_of_zero_keys (c : Word) : decBlock c kt len psn = some (rotl64 c 2) := by
  rw [← encBlock_eq_some_iff hlen, encBlock_of_zero_keys hlen hzero, rotr64_rotl64 c (by decide)]

end

end Sys2Proof.Machine
end

section
/-! The commands ENC and DEC (42_block_cipher.md R159 to R163): their words, what they leave, and their round trips. -/

namespace Sys2Proof

/-- The bits that are 0 in every word of format Z (R82), as the two fields that R88 tests. -/
theorem bitField_above_opcode (d : Word) : bitField d 63 8 = bitField d 15 8 + 0x100 * bitField d 63 16 := by
  have := d.isLt
  simp only [bitField, natField]
  omega

section
variable {d : Word} (hhigh : bitField d 63 16 = 0)
include hhigh

theorem decode_of_enc_opcode (hop : bitField d 7 0 = 0x02) : decode d = decodeZ d .enc := by
  rw [decode, if_pos hhigh, hop]; rfl

theorem decode_of_dec_opcode (hop : bitField d 7 0 = 0x03) : decode d = decodeZ d .dec := by
  rw [decode, if_pos hhigh, hop]; rfl

end

end Sys2Proof

namespace Sys2Proof.Machine

open Sys2Proof.Safety

/-- R222, for format Z: an opcode that `decodeZ` reads, with a bit of d[63:8] set, at step 1 or at step 4 of R88. -/
theorem step_formatZ_reserved {s : State} {d : Word} {es : List HostEvent} {i : Instr} (h0 : s.fcode = .noFault)
    (hin : s.inbox = .write 0x00 d :: es) (hformat : bitField d 63 16 = 0 → decode d = decodeZ d i)
    (hbits : bitField d 63 8 ≠ 0) : step s = .next { s with inbox := es, fcode := .illegalCmd, finfo := d } := by
  by_cases hhigh : bitField d 63 16 = 0
  · have hbyte : bitField d 15 8 ≠ 0 := by
      have hsum := bitField_above_opcode d
      omega
    exact step_undecodable h0 hin ((hformat hhigh).trans (if_neg hbyte))
  · exact step_undecodable h0 hin (decode_of_high_bits hhigh)

/-- Settles O34: R159's word, reserved bits and fault; on a ready engine the block is the one of `encBlock_of_pos`. -/
theorem encEnciphersTheBlock : Obligations.EncEnciphersTheBlock := by
  intro s h0
  refine ⟨decode_encode (i := .enc) rfl,
    fun d es hin hop hbits => step_formatZ_reserved h0 hin (decode_of_enc_opcode · hop) hbits,
    fun hk => exec_of_empty h0 rfl hk, fun hk => ⟨?_, fun hzero => ?_⟩⟩
  · simp only [Transform.ofIdx_mod]
    exact exec_enc_of_encBlock h0 (encBlock_of_pos (Nat.ne_of_gt hk))
  · exact exec_enc_of_encBlock h0 (encBlock_of_zero_keys hk hzero s.b)

/-- Settles O35, as O34 with `decBlock_of_pos`. -/
theorem decDeciphersTheBlock : Obligations.DecDeciphersTheBlock := by
  intro s h0
  refine ⟨decode_encode (i := .dec) rfl,
    fun d es hin hop hbits => step_formatZ_reserved h0 hin (decode_of_dec_opcode · hop) hbits,
    fun hk => exec_of_empty h0 rfl hk, fun hk => ⟨?_, fun hzero => ?_⟩⟩
  · simp only [Transform.ofIdx_mod]
    exact exec_dec_of_decBlock h0 (decBlock_of_pos (Nat.ne_of_gt hk))
  · exact exec_dec_of_decBlock h0 (decBlock_of_zero_keys hk hzero s.b)

/-- A cipher command that leaves the same block whether PSN is w or not commutes with writing w to PSN: while faulted, and
without a key, it reads no position. -/
theorem exec_setPsn {i : Instr} {s t : State} {w : Word} (hkey : needsKey i = true)
    (hready : CipherReady s → ∃ v, exec i s = .next (setB v s) ∧ exec i (setPsn w s) = .next (setB v (setPsn w s)))
    (h : exec i s = .next t) : exec i (setPsn w s) = .next (setPsn w t) := by
  by_cases h0 : s.fcode = .noFault
  · by_cases hk : s.klen = 0
    · cases h.symm.trans (exec_of_empty h0 hkey hk)
      exact exec_of_empty (s := setPsn w s) h0 hkey hk
    · obtain ⟨v, hv, hw⟩ := hready ⟨h0, Nat.one_le_iff_ne_zero.2 hk⟩
      cases h.symm.trans hv
      exact hw
  · have hreset : i ≠ .reset := by
      rintro rfl
      cases hkey
    cases h.symm.trans (exec_of_faulted h0 hreset)
    exact exec_of_faulted (s := setPsn w s) h0 hreset

/-- Settles O30: the functions by `encBlock_congr` and `decBlock_congr`, the commands by `exec_setPsn`. -/
theorem onlyThePositionModuloFourMatters : Obligations.OnlyThePositionModuloFourMatters := by
  refine ⟨fun b kt len psn => ?_, fun s t u w hw => ?_⟩
  · have hpsn : psn % 4 = psn % 4 % 4 := (Nat.mod_mod psn 4).symm
    exact ⟨encBlock_congr Iff.rfl hpsn (fun _ _ _ => rfl) b, decBlock_congr Iff.rfl hpsn (fun _ _ _ => rfl) b⟩
  · have hpsn : w.toNat % 4 = s.psn.toNat % 4 := by
      simpa [bitField, natField] using hw
    refine ⟨exec_setPsn rfl fun hready => ?_, exec_setPsn rfl fun hready => ?_⟩
    · obtain ⟨v, hv⟩ := exists_encBlock (kt := s.kt) (psn := s.psn.toNat) hready.2 s.b
      have hv' := (encBlock_congr Iff.rfl hpsn (fun _ _ _ => rfl) s.b).trans hv
      exact ⟨v, exec_enc_of_encBlock hready.1 hv, exec_enc_of_encBlock (s := setPsn w s) hready.1 hv'⟩
    · obtain ⟨v, hv⟩ := exists_decBlock (kt := s.kt) (psn := s.psn.toNat) hready.2 s.b
      have hv' := (decBlock_congr Iff.rfl hpsn (fun _ _ _ => rfl) s.b).trans hv
      exact ⟨v, exec_dec_of_decBlock hready.1 hv, exec_dec_of_decBlock (s := setPsn w s) hready.1 hv'⟩

theorem serve_enc (s : State) : serve (.write 0x00 0x02) s = exec .enc s :=
  hostWrite_command (decode_encode (i := .enc) rfl) s

theorem serve_dec (s : State) : serve (.write 0x00 0x03) s = exec .dec s :=
  hostWrite_command (decode_encode (i := .dec) rfl) s

theorem serveAll_singleton (e : HostEvent) (s : State) : serveAll [e] s = serve e s := by
  rw [serveAll]
  cases serve e s <;> rfl

/-- The word of R162 for slot i: the format X opcode `op`, with the transform of position r's slot i and that slot's key. -/
def slotEvent (op r i : Nat) : HostEvent := .write 0x00 (BitVec.ofNat 64 (op + 0x100 * ((r + i) % 4) + 0x400 * i))

section
variable {s : State} {i : Nat} (h : CipherReady s) (hi : i < 4) (v : Word)
include h hi

theorem serve_xfwd_slotEvent : serve (slotEvent 0x04 (s.psn.toNat % 4) i) (setB v s) =
    .next (setB (encSlot s.kt s.klen s.psn.toNat i v) s) := by
  have hdecode := decode_encode (i := .xfwd (Transform.ofIdx ((s.psn.toNat % 4 + i) % 4)) i)
    (decide_eq_true (Nat.le_of_lt_succ hi))
  rw [encode_xfwd_ofIdx (Nat.mod_lt _ (by decide)), Transform.ofIdx_mod,
    Transform.ofIdx_add_congr (Nat.mod_mod s.psn.toNat 4)] at hdecode
  exact (hostWrite_command hdecode _).trans (exec_xfwd_of_ready _ i (s := setB v s) h)

theorem serve_xinv_slotEvent : serve (slotEvent 0x05 (s.psn.toNat % 4) i) (setB v s) =
    .next (setB (decSlot s.kt s.klen s.psn.toNat i v) s) := by
  have hdecode := decode_encode (i := .xinv (Transform.ofIdx ((s.psn.toNat % 4 + i) % 4)) i)
    (decide_eq_true (Nat.le_of_lt_succ hi))
  rw [encode_xinv_ofIdx (Nat.mod_lt _ (by decide)), Transform.ofIdx_mod,
    Transform.ofIdx_add_congr (Nat.mod_mod s.psn.toNat 4)] at hdecode
  exact (hostWrite_command hdecode _).trans (exec_xinv_of_ready _ i (s := setB v s) h)

end

/-- Events that each rewrite B alone leave the fold of what they do to it. -/
theorem serveAll_map_setB {s : State} {event : Nat → HostEvent} {f : Word → Nat → Word} {is : List Nat}
    (h : ∀ i ∈ is, ∀ v, serve (event i) (setB v s) = .next (setB (f v i) s)) (v : Word) :
    serveAll (is.map event) (setB v s) = .next (setB (is.foldl f v) s) := by
  induction is generalizing v with
  | nil => rfl
  | cons i is ih =>
    obtain ⟨hi, his⟩ := List.forall_mem_cons.1 h
    rw [List.map_cons, serveAll, hi, andThen_next, ih his, List.foldl_cons]

/-- Settles O36: R150 and R151 are folds over the slots, and so is serving one word for each slot. -/
theorem encIsFourForwardTransforms : Obligations.EncIsFourForwardTransforms := by
  intro s h
  have hk : s.klen ≠ 0 := Nat.ne_of_gt h.2
  constructor
  · rw [serveAll_singleton, serve_enc, exec_enc_of_encBlock h.1 (if_neg hk)]
    exact (serveAll_map_setB (event := slotEvent 0x04 (s.psn.toNat % 4)) (is := List.range slotCount)
      (fun i hi => serve_xfwd_slotEvent h (List.mem_range.1 hi)) s.b).symm
  · rw [serveAll_singleton, serve_dec, exec_dec_of_decBlock h.1 (if_neg hk)]
    exact (serveAll_map_setB (event := slotEvent 0x05 (s.psn.toNat % 4)) (is := (List.range slotCount).reverse)
      (fun i hi => serve_xinv_slotEvent h (List.mem_range.1 (List.mem_reverse.1 hi))) s.b).symm

/-- R163: a block enciphered with an engine's slot keys and position is deciphered by every ready engine that has the same. -/
theorem exec_dec_of_enciphered {u : State} {b c : Word} {kt : List Word} {len psn : Nat} (hlen : 1 ≤ len)
    (hc : encBlock b kt len psn = some c) (hu : CipherReady u) (hpsn : u.psn.toNat % 4 = psn % 4)
    (hkeys : ∀ i < 4, slotKey u.kt u.klen i = slotKey kt len i) : exec .dec (setB c u) = .next (setB b u) := by
  have hempty : u.klen = 0 ↔ len = 0 := iff_of_false (Nat.ne_of_gt hu.2) (Nat.ne_of_gt hlen)
  have hb := (decBlock_congr hempty hpsn (fun _ => hkeys) c).trans ((encBlock_eq_some_iff hlen).1 hc)
  exact exec_dec_of_decBlock (s := setB c u) hu.1 hb

/-- Settles O37: both engines of R163 by `exec_dec_of_enciphered`, the first of them with itself; the other order by
`encBlock_eq_some_iff`. -/
theorem encThenDecRestoresTheBlock : Obligations.EncThenDecRestoresTheBlock := by
  intro s h
  obtain ⟨c, hc⟩ := exists_encBlock (kt := s.kt) (psn := s.psn.toNat) h.2 s.b
  obtain ⟨b, hb⟩ := exists_decBlock (kt := s.kt) (psn := s.psn.toNat) h.2 s.b
  have henc : exec .enc s = .next (setB c s) := exec_enc_of_encBlock h.1 hc
  refine ⟨?_, ?_, fun t u hu hpsn hkeys ht => ?_⟩
  · rw [serveAll, serve_enc, henc, andThen_next, serveAll_singleton, serve_dec]
    exact exec_dec_of_enciphered h.2 hc h rfl fun _ _ => rfl
  · rw [serveAll, serve_dec, exec_dec_of_decBlock h.1 hb, andThen_next, serveAll_singleton, serve_enc]
    exact exec_enc_of_encBlock (s := setB b s) h.1 ((encBlock_eq_some_iff h.2).2 hb)
  · cases henc.symm.trans ht
    exact exec_dec_of_enciphered h.2 hc hu hpsn hkeys

end Sys2Proof.Machine
end

section
/-! The command NOP (43_control_commands.md R180). -/

namespace Sys2Proof

theorem decode_of_nop_opcode {d : Word} (hhigh : bitField d 63 16 = 0) (hop : bitField d 7 0 = 0x00) :
    decode d = decodeZ d .nop := by
  rw [decode, if_pos hhigh, hop]; rfl

end Sys2Proof

namespace Sys2Proof.Machine

theorem exec_nop (s : State) : exec .nop s = .next s := rfl

/-- Settles O38: the word 0 is NOP's own, faulted or not; any other word with its opcode has a reserved bit of format Z set. -/
theorem nopChangesNothing : Obligations.NopChangesNothing := by
  refine fun s => ⟨exec_nop s, fun d es hin => ⟨?_, fun h0 hop hbits => ?_⟩⟩
  · rintro rfl
    exact (step_command hin (decode_encode (i := .nop) rfl)).trans (exec_nop _)
  · exact step_formatZ_reserved h0 hin (decode_of_nop_opcode · hop) hbits

end Sys2Proof.Machine
end

section
/-! The encoding of a text (45_host_framing.md R191): which bytes it has, and that it can be undone. -/

namespace Sys2Proof.Machine

/-- R191's first row, and what its other rows share: past the one-byte encodings every byte is 0x80 or more. -/
theorem utf8OfScalar_cases (c : Char) :
    c.toNat ≤ 0x7F ∧ utf8OfScalar c = [byteOf c.toNat] ∨
      0x7F < c.toNat ∧ ∀ x ∈ utf8OfScalar c, 0x80 ≤ x.toNat := by
  have hc := scalar_lt c
  unfold utf8OfScalar
  by_cases h : c.toNat ≤ 0x7F
  · exact .inl ⟨h, if_pos h⟩
  · refine .inr ⟨Nat.lt_of_not_le h, ?_⟩
    simp only [if_neg h, natField]
    split_ifs <;> simp [byteOf] <;> omega

theorem char_eq_nul_iff {c : Char} : c = Char.ofNat 0 ↔ c.toNat = 0 :=
  ⟨fun h => h ▸ rfl, fun h => by rw [← Char.ofNat_toNat c, h]⟩

theorem zero_mem_utf8OfScalar {c : Char} : (0 : Byte) ∈ utf8OfScalar c ↔ c = Char.ofNat 0 := by
  rw [char_eq_nul_iff]
  rcases utf8OfScalar_cases c with ⟨hle, heq⟩ | ⟨hlt, hbytes⟩
  · rw [heq, List.mem_singleton, ← BitVec.toNat_inj, byteOf_toNat (by omega), eq_comm]
    rfl
  · exact iff_of_false (fun h => absurd (hbytes 0 h) (by decide)) (by omega)

theorem utf8Encode_nil : utf8Encode [] = [] := rfl

theorem utf8Encode_concat (t : Text) (c : Char) : utf8Encode (t ++ [c]) = utf8Encode t ++ utf8OfScalar c := by
  simp [utf8Encode]

/-- A decoder that is exact on valid input undoes the encoding, and one exists. -/
theorem utf8Encode_injective : Function.Injective utf8Encode :=
  Function.LeftInverse.injective dropUndecodable.exact_on_valid

/-- Settles O52: the byte 0 by the rows of R191's table, the encoding's being faithful by a decoder that undoes it. -/
theorem encodingOfTextIsFaithful : Obligations.EncodingOfTextIsFaithful :=
  ⟨fun _ => zero_mem_utf8OfScalar, utf8Encode_nil, fun _ _ h => utf8Encode_injective h⟩

end Sys2Proof.Machine
end

section
/-! The Framer between bytes and blocks (45_host_framing.md R192, R194): the bytes of the blocks, and their padding. -/

namespace Sys2Proof.Machine

/-- Byte n of a byte string that zeros continue without end, as a number (R192). -/
def paddedByte (y : List Byte) (n : Nat) : Nat := (y.getD n 0).toNat

theorem paddedByte_lt (y : List Byte) (n : Nat) : paddedByte y n < 256 := (y.getD n 0).isLt

/-- R192's weighted sum for a chunk of n bytes: the number whose digits, least significant first, are the bytes from the last. -/
theorem sum_weighted_eq_ofDigits (base : Nat) (g : Nat → Nat) (n : Nat) :
    ((List.range n).map fun j => g j * base ^ (n - 1 - j)).sum = Nat.ofDigits base ((List.range n).reverse.map g) := by
  induction n with
  | zero => rfl
  | succ n ih =>
    have hshift : ∀ j ∈ List.range n, g j * base ^ (n - j) = base * (g j * base ^ (n - 1 - j)) := fun j hj => by
      have hexp : n - j = n - 1 - j + 1 := by
        have := List.mem_range.1 hj
        omega
      rw [hexp, pow_succ']
      exact Nat.mul_left_comm ..
    have hsum : ((List.range n).map fun j => g j * base ^ (n - j)).sum =
        base * Nat.ofDigits base ((List.range n).reverse.map g) := by
      rw [List.map_congr_left hshift, List.sum_map_mul_left, ih]
    simp [List.range_succ, Nat.ofDigits_cons, hsum, Nat.add_comm]

/-- The bytes of chunk m (R192), from the last to the first. -/
def chunkDigits (y : List Byte) (m : Nat) : List Nat := (List.range 8).reverse.map fun j => paddedByte y (8 * m + j)

theorem chunkDigits_length (y : List Byte) (m : Nat) : (chunkDigits y m).length = 8 := rfl

theorem chunkDigits_lt (y : List Byte) (m : Nat) : ∀ d ∈ chunkDigits y m, d < 256 :=
  List.forall_mem_map.2 fun j _ => paddedByte_lt y (8 * m + j)

theorem head!_drop_chunkDigits (y : List Byte) (m : Nat) {j : Nat} (hj : j < 8) :
    ((chunkDigits y m).drop (7 - j)).head! = paddedByte y (8 * m + j) := by
  interval_cases j <;> rfl

theorem blockAt_toNat (y : List Byte) (m : Nat) : (blockAt y m).toNat = Nat.ofDigits 256 (chunkDigits y m) := by
  have hlt : Nat.ofDigits 256 (chunkDigits y m) < 256 ^ 8 :=
    (Nat.ofDigits_lt_base_pow_length (by decide) (chunkDigits_lt y m)).trans_eq (by rw [chunkDigits_length])
  have hsum := sum_weighted_eq_ofDigits 256 (fun j => paddedByte y (8 * m + j)) 8
  rw [← chunkDigits] at hsum
  simp only [paddedByte, Nat.reduceSub] at hsum
  rw [blockAt, BitVec.toNat_ofNat, hsum, Nat.mod_eq_of_lt (hlt.trans_eq (by norm_num))]

/-- Byte j of a block has the weight `256^(7 - j)`. -/
theorem blockByte_eq_digit (b : Word) {j : Nat} (hj : j < 8) : blockByte b j = byteOf (b.toNat / 256 ^ (7 - j) % 256) := by
  interval_cases j <;> rfl

/-- Each byte of a block is the byte of the string that R192 put there. -/
theorem blockByte_blockAt (y : List Byte) (m : Nat) {j : Nat} (hj : j < 8) :
    blockByte (blockAt y m) j = y.getD (8 * m + j) 0 := by
  have hdrop := Nat.ofDigits_div_pow_eq_ofDigits_drop (7 - j) (by decide) _ (chunkDigits_lt y m)
  rw [blockByte_eq_digit _ hj, blockAt_toNat, hdrop, Nat.ofDigits_mod_eq_head!, head!_drop_chunkDigits y m hj,
    Nat.mod_eq_of_lt (paddedByte_lt ..), paddedByte, byteOf, BitVec.ofNat_toNat, BitVec.setWidth_eq]

/-- Numbers taken eight at a time are taken in order. -/
theorem flatMap_range_eight {α : Type} (f : Nat → α) (n : Nat) :
    ((List.range n).flatMap fun m => (List.range 8).map fun j => f (8 * m + j)) = (List.range (8 * n)).map f := by
  induction n with
  | zero => rfl
  | succ n ih =>
    rw [List.range_succ (n := n), List.flatMap_append, ih, Nat.mul_succ, List.range_add, List.map_append, List.map_map,
      List.flatMap_singleton]
    rfl

/-- A byte string read past its end is the string and zeros. -/
theorem map_getD_range_add (y : List Byte) (k : Nat) :
    (List.range (y.length + k)).map (y.getD · 0) = y ++ List.replicate k 0 := by
  refine List.ext_getElem (by simp) fun n hn _ => ?_
  rw [List.getElem_map, List.getElem_range, List.getElem_append]
  split <;> rename_i h
  · rw [List.getD_eq_getElem _ _ h]
  · rw [List.getD_eq_default _ _ (Nat.le_of_not_lt h), List.getElem_replicate]

theorem blocksToBytes_bytesToBlocks (y : List Byte) :
    blocksToBytes (bytesToBlocks y) = y ++ List.replicate (8 * ((y.length + 7) / 8) - y.length) 0 := by
  have hbytes (m : Nat) : (List.range blockBytes).map (blockByte (blockAt y m)) =
      (List.range 8).map fun j => y.getD (8 * m + j) 0 :=
    List.map_congr_left fun j hj => blockByte_blockAt y m (List.mem_range.1 hj)
  have hlen : 8 * ((y.length + 7) / 8) = y.length + (8 * ((y.length + 7) / 8) - y.length) := by omega
  rw [blocksToBytes, bytesToBlocks, List.flatMap_map]
  simp only [hbytes]
  rw [flatMap_range_eight (y.getD · 0), hlen, map_getD_range_add, ← hlen]

/-- Settles O53: the bytes are `blocksToBytes_bytesToBlocks`, and R192 has one block for each chunk. -/
theorem blocksCarryTheBytesAndPadding : Obligations.BlocksCarryTheBytesAndPadding :=
  fun y => ⟨blocksToBytes_bytesToBlocks y, by rw [bytesToBlocks, List.length_map, List.length_range]⟩

end Sys2Proof.Machine
end

section
/-! The Framer's round trip (45_host_framing.md R195 to R198): the strip of zero bytes is a strip of U+0000. -/

namespace Sys2Proof.Machine

/-- The text without its longest suffix of U+0000 (R198). -/
def stripTrailingNuls (t : Text) : Text := t.rdropWhile fun c => c == Char.ofNat 0

theorem stripTrailingNuls_eq_self_iff {t : Text} : stripTrailingNuls t = t ↔ t.getLast? ≠ some (Char.ofNat 0) := by
  rw [stripTrailingNuls, List.rdropWhile_eq_self_iff]
  induction t using List.reverseRecOn with
  | nil => simp
  | append_singleton t c => simp

theorem stripTrailingZeros_eq_rdropWhile (y : List Byte) : stripTrailingZeros y = y.rdropWhile fun x => x == 0 := rfl

/-- R195: the padding goes. -/
theorem stripTrailingZeros_append_zeros (y : List Byte) (n : Nat) :
    stripTrailingZeros (y ++ List.replicate n 0) = stripTrailingZeros y := by
  induction n with
  | zero => rw [List.replicate_zero, List.append_nil]
  | succ n ih =>
    rw [List.replicate_succ', ← List.append_assoc, stripTrailingZeros_eq_rdropWhile,
      List.rdropWhile_concat_pos (· == 0) _ 0 rfl, ← stripTrailingZeros_eq_rdropWhile, ih]

/-- R195: where the last bytes are other than 0, nothing goes. -/
theorem stripTrailingZeros_append_of_no_zero {y z : List Byte} (hz : z ≠ []) (h : 0 ∉ z) :
    stripTrailingZeros (y ++ z) = y ++ z := by
  rw [stripTrailingZeros_eq_rdropWhile, List.rdropWhile_eq_self_iff]
  intro _ hlast
  rw [List.getLast_append_of_ne_nil _ hz, beq_iff_eq] at hlast
  exact h (hlast ▸ List.getLast_mem hz)

/-- By R191 the zero bytes that end an encoding are those of the U+0000 that end the text. -/
theorem stripTrailingZeros_utf8Encode (t : Text) :
    stripTrailingZeros (utf8Encode t) = utf8Encode (stripTrailingNuls t) := by
  induction t using List.reverseRecOn with
  | nil => rfl
  | append_singleton t c ih =>
    rw [utf8Encode_concat]
    by_cases hc : c = Char.ofNat 0
    · have hstrip : stripTrailingNuls (t ++ [c]) = stripTrailingNuls t :=
        List.rdropWhile_concat_pos _ _ _ (beq_iff_eq.2 hc)
      rw [hstrip, ← ih, hc]
      exact stripTrailingZeros_append_zeros _ 1
    · have hstrip : stripTrailingNuls (t ++ [c]) = t ++ [c] :=
        List.rdropWhile_concat_neg _ _ _ (mt beq_iff_eq.1 hc)
      rw [hstrip, utf8Encode_concat]
      exact stripTrailingZeros_append_of_no_zero (List.ne_nil_of_length_pos (utf8OfScalar_length_pos c))
        (mt zero_mem_utf8OfScalar.1 hc)

/-- R198: the padding and the zero bytes that end the encoding go, and what remains is valid input of the decoder. -/
theorem blocksToText_textToBlocks (dec : Utf8Decoder) (t : Text) :
    blocksToText dec (textToBlocks t) = stripTrailingNuls t := by
  rw [blocksToText, textToBlocks, blocksToBytes_bytesToBlocks, stripTrailingZeros_append_zeros,
    stripTrailingZeros_utf8Encode, dec.exact_on_valid]

/-- Settles O54, from `blocksToText_textToBlocks`. -/
theorem framerRoundTrip : Obligations.FramerRoundTrip := by
  intro dec t
  rw [blocksToText_textToBlocks]
  exact ⟨rfl, stripTrailingNuls_eq_self_iff⟩

end Sys2Proof.Machine
end

section
/-! The PositionSelector (45_host_framing.md R199 to R201). -/

namespace Sys2Proof.Machine

section
variable {y : List Byte} (hy : y ≠ [])
include hy

/-- R199. -/
theorem selectInitialPosition_of_ne_nil (draw : Fin 16) :
    selectInitialPosition draw y = (y.map BitVec.toNat).sum % 16 := if_neg hy

/-- R201. -/
theorem selectInitialPosition_append_zeros (draw draw' : Fin 16) (z : Nat) :
    selectInitialPosition draw' (y ++ List.replicate z 0) = selectInitialPosition draw y := by
  rw [selectInitialPosition_of_ne_nil hy, selectInitialPosition_of_ne_nil (List.append_ne_nil_of_left_ne_nil hy _)]
  simp

end

/-- R200. -/
theorem selectInitialPosition_nil (draw : Fin 16) : selectInitialPosition draw [] = draw.val := rfl

theorem selectInitialPosition_lt (draw : Fin 16) (y : List Byte) : selectInitialPosition draw y < 16 := by
  by_cases hy : y = []
  · rw [hy, selectInitialPosition_nil]
    exact draw.isLt
  · rw [selectInitialPosition_of_ne_nil hy]
    exact Nat.mod_lt _ (by decide)

theorem bitField_low_nibble (x : Byte) : bitField (x.setWidth 64) 3 0 = x.toNat % 16 := by
  have := x.isLt
  simp only [bitField, natField, BitVec.toNat_setWidth]
  omega

/-- Settles O55: padding adds zeros to the sum, and 16 may be reduced by before or after summing. -/
theorem paddingKeepsThePosition : Obligations.PaddingKeepsThePosition := by
  refine fun draw y => ⟨selectInitialPosition_lt draw y, selectInitialPosition_nil draw, fun hy draw' z => ⟨?_, ?_, ?_⟩⟩
  · exact selectInitialPosition_append_zeros hy draw draw' z
  · rw [blocksToBytes_bytesToBlocks]
    exact selectInitialPosition_append_zeros hy draw draw' _
  · rw [selectInitialPosition_of_ne_nil hy, List.sum_nat_mod, List.map_map]
    simp only [bitField_low_nibble, Function.comp_def]

end Sys2Proof.Machine
end

section
/-! A whole message (45_host_framing.md R202 to R204): the blocks, one after the other, each on its own. -/

namespace Sys2Proof.Machine

open Sys2Proof.Safety

/-- With the keys and the position of s, the command turns the block v in B into c, whatever the host has read. -/
def TurnsBlock (i : Instr) (s : State) (v c : Word) : Prop :=
  ∀ os, exec i (setB v { s with outbox := os }) = .next (setB c { s with outbox := os })

section
variable {i : Instr} {s : State} {blocks results : List Word} (h0 : s.fcode = .noFault) (hwf : i.wf = true)
include h0 hwf

/-- R164, R157: what one block leaves in B, and what it returned, does not influence the next. -/
theorem serveAll_flatMap_blockEvents (h : List.Forall₂ (TurnsBlock i s) blocks results) :
    serveAll (blocks.flatMap (blockEvents i)) s =
      .next { s with b := results.getLastD s.b, outbox := s.outbox ++ results } := by
  induction blocks generalizing s results with
  | nil =>
    cases h
    rw [List.append_nil]
    rfl
  | cons v blocks ih =>
    cases h with
    | @cons _ c _ results hv hrest =>
      rw [List.flatMap_cons, serveAll_append, serveAll_blockEvents h0 hwf (hv s.outbox), andThen_next,
        ih (s := { s with b := c, outbox := s.outbox ++ [c] }) h0 hrest]
      simp [-List.getLastD_eq_getLast?, List.getLastD_cons]

/-- The whole message: the position written first stands for every block (R202, R203). -/
theorem serveAll_messageEvents {psn : Nat}
    (h : List.Forall₂ (TurnsBlock i (setPsn (BitVec.ofNat 64 psn) s)) blocks results) :
    serveAll (messageEvents i psn blocks) s =
      .next { s with psn := BitVec.ofNat 64 psn, b := results.getLastD s.b, outbox := s.outbox ++ results } := by
  have hpsn : serve (.write (regAddr .psn) (BitVec.ofNat 64 psn)) s = .next (setPsn (BitVec.ofNat 64 psn) s) :=
    hostWrite_register (r := .psn) h0 rfl (by decide)
  rw [messageEvents, serveAll, hpsn, andThen_next, serveAll_flatMap_blockEvents (s := setPsn (BitVec.ofNat 64 psn) s) h0 hwf h]
  rfl

end

theorem wordsRead_append {s t : State} {results : List Word} (h : t.outbox = s.outbox ++ results) :
    wordsRead s t = results := by
  rw [wordsRead, h, List.drop_left]

/-- The position reaches the pipeline modulo 4 only (R154), so what 64 bits keep of it is enough. -/
theorem ofNat_position_mod_four (psn : Nat) : (BitVec.ofNat 64 psn).toNat % 4 = psn % 4 := by
  rw [BitVec.toNat_ofNat]
  omega

/-- The blocks and their cipher blocks, pair by pair, since each block is enciphered on its own (R157). -/
abbrev EncipheredAs (kt : List Word) (len psn : Nat) (blocks cipher : List Word) : Prop :=
  List.Forall₂ (fun b c => encBlock b kt len psn = some c) blocks cipher

theorem exists_encipheredAs {kt : List Word} {len psn : Nat} (hlen : 1 ≤ len) (blocks : List Word) :
    ∃ cipher, EncipheredAs kt len psn blocks cipher := by
  induction blocks with
  | nil => exact ⟨[], .nil⟩
  | cons b blocks ih =>
    obtain ⟨c, hc⟩ := exists_encBlock (kt := kt) (psn := psn) hlen b
    obtain ⟨cipher, hcipher⟩ := ih
    exact ⟨c :: cipher, .cons hc hcipher⟩

theorem EncipheredAs.map_some {kt : List Word} {len psn : Nat} {blocks cipher : List Word}
    (h : EncipheredAs kt len psn blocks cipher) :
    cipher.map some = blocks.map fun b => encBlock b kt len psn := by
  induction h with
  | nil => rfl
  | cons hc _ ih => rw [List.map_cons, List.map_cons, ih, hc]

section
variable {s : State} {psn : Nat} {blocks cipher : List Word} (hs : CipherReady s)
  (hcipher : EncipheredAs s.kt s.klen psn blocks cipher)
include hs hcipher

/-- R202's loop: the engine returns the cipher blocks. -/
theorem serveAll_messageEvents_enc : serveAll (messageEvents .enc psn blocks) s = .next
    { s with psn := BitVec.ofNat 64 psn, b := cipher.getLastD s.b, outbox := s.outbox ++ cipher } := by
  refine serveAll_messageEvents hs.1 rfl (hcipher.imp fun b c hc os => ?_)
  have hpsn := encBlock_congr (kt := s.kt) (len := s.klen) Iff.rfl (ofNat_position_mod_four psn) (fun _ _ _ => rfl) b
  exact exec_enc_of_encBlock (s := setB b { setPsn (BitVec.ofNat 64 psn) s with outbox := os }) hs.1 (hpsn.trans hc)

/-- R203's loop on an engine with the same slot keys: the engine returns the blocks (R163). -/
theorem serveAll_messageEvents_dec {u : State} (hu : CipherReady u)
    (hkeys : ∀ i < 4, slotKey u.kt u.klen i = slotKey s.kt s.klen i) :
    serveAll (messageEvents .dec psn cipher) u = .next
      { u with psn := BitVec.ofNat 64 psn, b := blocks.getLastD u.b, outbox := u.outbox ++ blocks } :=
  serveAll_messageEvents hu.1 rfl <| List.Forall₂.flip <| hcipher.imp fun _ _ hc os =>
    exec_dec_of_enciphered (u := { setPsn (BitVec.ofNat 64 psn) u with outbox := os }) hs.2 hc hu
      (ofNat_position_mod_four psn) hkeys

end

theorem encryptMessage_of_serveAll {draw : Fin 16} {t : Text} {s s' : State}
    (h : serveAll (messageEvents .enc (selectInitialPosition draw (utf8Encode t)) (textToBlocks t)) s = .next s') :
    encryptMessage draw t s = some (wordsRead s s', selectInitialPosition draw (utf8Encode t), s') := by
  simp only [encryptMessage, h]

theorem decryptMessage_of_serveAll {dec : Utf8Decoder} {cipher : List Word} {psn : Nat} {u u' : State}
    (h : serveAll (messageEvents .dec psn cipher) u = .next u') :
    decryptMessage dec cipher psn u = some (blocksToText dec (wordsRead u u'), u') := by
  simp only [decryptMessage, h]

/-- Settles O56, from `serveAll_messageEvents_enc`. -/
theorem messageEnciphersEachBlock : Obligations.MessageEnciphersEachBlock := by
  intro draw t s hs psn
  obtain ⟨cipher, hcipher⟩ := exists_encipheredAs (kt := s.kt) (psn := psn) hs.2 (textToBlocks t)
  have hrun := encryptMessage_of_serveAll (serveAll_messageEvents_enc hs hcipher)
  rw [wordsRead_append rfl] at hrun
  exact ⟨cipher, _, hrun, hcipher.map_some, ⟨rfl, rfl⟩, rfl⟩

/-- Settles O57: deciphering returns the blocks themselves, and the Framer's round trip does the rest. -/
theorem messageRoundTrip : Obligations.MessageRoundTrip := by
  intro dec t psn s u hs hu hkeys
  obtain ⟨cipher, hcipher⟩ := exists_encipheredAs (kt := s.kt) (psn := psn) hs.2 (textToBlocks t)
  obtain ⟨s', henc, hread⟩ :
      ∃ s', serveAll (messageEvents .enc psn (textToBlocks t)) s = .next s' ∧ wordsRead s s' = cipher :=
    ⟨_, serveAll_messageEvents_enc hs hcipher, wordsRead_append rfl⟩
  have hdec := decryptMessage_of_serveAll (dec := dec) (serveAll_messageEvents_dec hs hcipher hu hkeys)
  rw [wordsRead_append rfl, blocksToText_textToBlocks, ← hread] at hdec
  refine ⟨s', _, henc, hdec, fun hlast => ?_, ?_⟩
  · rw [hdec, stripTrailingNuls_eq_self_iff.2 hlast]
  · rintro draw rfl
    exact encryptMessage_of_serveAll henc

end Sys2Proof.Machine
end

section
/-! A faulted engine (60_exceptions.md R220, R233, R235): a reset leaves the faulted state, and no other event changes a
register. -/

namespace Sys2Proof.Machine

open Sys2Proof.Safety

/-- Everything a step can do: none where no event waits, else serve the oldest. -/
theorem step_cases {s t : State} (h : step s = .next t) :
    s.inbox = [] ∧ t = s ∨ ∃ e es, s.inbox = e :: es ∧ serve e (setInbox es s) = .next t := by
  cases hin : s.inbox with
  | nil =>
    rw [step_of_inbox_nil hin] at h
    cases h
    exact .inl ⟨rfl, rfl⟩
  | cons e es => exact .inr ⟨e, es, rfl, (step_of_inbox hin).symm.trans h⟩

/-- Both resets erase the engine, faulted or not (R235). -/
theorem serve_of_resets {e : HostEvent} (he : resets e = true) (s : State) : serve e s = .next (resetEngine s) := by
  cases e with
  | write a d =>
    obtain ⟨rfl, rfl⟩ : a = 0x00 ∧ d = 0x07 := by simpa [resets] using he
    exact hostWrite_resetWord s
  | read a => cases he
  | hardReset => rfl

section
variable {s : State} (h : s.fcode ≠ .noFault)
include h

/-- A read while faulted returns the register's value, or 0 where none can be read, and records nothing. -/
theorem hostRead_of_faulted (a : Addr) :
    hostRead a s = .next (reply (((regAt s.cfg a).bind fun r => regValue r s).getD 0) s) := by
  unfold hostRead
  cases regAt s.cfg a with
  | none => simp [raiseFault_of_faulted h]
  | some r => cases hv : regValue r s <;> simp [hv, raiseFault_of_faulted h]

/-- A write while faulted changes nothing, unless it is the RESET word to CMD. -/
theorem hostWrite_of_faulted {a : Addr} {d : Word} (hne : ¬(a = 0x00 ∧ d = 0x07)) : hostWrite a d s = .next s := by
  rw [hostWrite, if_neg h, hostWriteFaulted, if_neg hne]

theorem serve_of_faulted {e : HostEvent} (he : resets e = false) : ∃ t, serve e s = .next t ∧ SameEngine s t := by
  cases e with
  | write a d => exact ⟨s, hostWrite_of_faulted h (by simpa [resets] using he), rfl, rfl⟩
  | read a => exact ⟨_, hostRead_of_faulted h a, rfl, rfl⟩
  | hardReset => cases he

/-- What a step leaves of a faulted engine: the engine as it was, or the reset state. -/
theorem step_cases_of_faulted {t : State} (ht : step s = .next t) :
    SameEngine s t ∨ ∃ e es, s.inbox = e :: es ∧ resets e = true ∧ t = resetEngine (setInbox es s) := by
  rcases step_cases ht with ⟨-, rfl⟩ | ⟨e, es, hin, hserve⟩
  · exact .inl ⟨rfl, rfl⟩
  · cases he : resets e with
    | true =>
      rw [serve_of_resets he] at hserve
      cases hserve
      exact .inr ⟨e, es, hin, he, rfl⟩
    | false =>
      obtain ⟨u, hu, hsame⟩ := serve_of_faulted (s := setInbox es s) h he
      cases hu.symm.trans hserve
      exact .inl hsame

theorem step_read_of_faulted {a : Addr} {es : List HostEvent} (hin : s.inbox = .read a :: es)
    (hnone : ∀ r, regAt s.cfg a = some r → r = .cmd) :
    step s = .next { s with inbox := es, outbox := s.outbox ++ [0] } := by
  rw [step_of_inbox hin, serve, hostRead_of_faulted (s := setInbox es s) h, setInbox_cfg]
  cases hr : regAt s.cfg a with
  | none => rfl
  | some r => rw [hnone r hr]; rfl

theorem step_write_of_faulted {a : Addr} {d : Word} {es : List HostEvent} (hin : s.inbox = .write a d :: es)
    (hne : ¬(a = 0x00 ∧ d = 0x07)) : step s = .next { s with inbox := es } :=
  (step_of_inbox hin).trans (hostWrite_of_faulted (s := setInbox es s) h hne)

end

/-- The unmapped addresses as R57 lists them. -/
theorem unmapped_iff_regAt_eq_none {cfg : Config} {a : Addr} :
    a = 0x03 ∨ 0x09 ≤ a.toNat ∧ a.toNat ≤ 0x0F ∨ 0x10 + cfg.ktCap ≤ a.toNat ↔ regAt cfg a = none := by
  rw [regAt_eq_none, ← BitVec.toNat_inj]
  rfl

/-- Settles O45: a readable register by R55's rule, which asks for no fault; the other four by the rules above. -/
theorem faultedEngineIgnoresAllButReset : Obligations.FaultedEngineIgnoresAllButReset := by
  intro s es h
  refine ⟨fun a r v hr hv hin => step_read_register hin hr hv, fun a ha hin => step_read_of_faulted h hin fun r hr => ?_,
    fun a d ha hin => step_write_of_faulted h hin fun hc => ha hc.1,
    fun hin => (step_of_inbox hin).trans (hostWrite_resetWord _),
    fun d hd hin => step_write_of_faulted h hin fun hc => hd hc.2⟩
  rcases ha with rfl | ha
  · exact (Option.some.inj hr).symm
  · rw [unmapped_iff_regAt_eq_none.1 ha] at hr
    cases hr

/-- Settles O46, from `step_cases_of_faulted`. -/
theorem onlyResetLeavesTheFaultedState : Obligations.OnlyResetLeavesTheFaultedState := by
  intro s t h ht
  rcases step_cases_of_faulted h ht with ⟨-, hsame⟩ | ⟨e, es, hin, he, rfl⟩
  · have hcode : t.fcode = s.fcode := congrArg Engine.fcode hsame
    exact ⟨fun _ => ⟨hcode, congrArg Engine.finfo hsame⟩, fun h0 => absurd (hcode.symm.trans h0) h⟩
  · exact ⟨fun hne => absurd rfl hne, fun _ => ⟨e, es, hin, he, rfl⟩⟩

/-- Settles O48, by induction on the events: each leaves the engine as it was, so faulted. -/
theorem faultIsStickyUntilReset : Obligations.FaultIsStickyUntilReset := by
  intro es s h hes
  induction es generalizing s with
  | nil => exact ⟨s, rfl, rfl, rfl⟩
  | cons e es ih =>
    obtain ⟨he, hrest⟩ := List.forall_mem_cons.1 hes
    obtain ⟨u, hu, hcfg, hsame⟩ := serve_of_faulted h he
    have hfaulted : u.fcode ≠ .noFault := hsame.symm ▸ h
    obtain ⟨t, ht, hcfg', hsame'⟩ := ih u hfaulted hrest
    exact ⟨t, by rw [serveAll, hu, andThen_next, ht], hcfg'.trans hcfg, hsame'.trans hsame⟩

end Sys2Proof.Machine
end

section
/-! Fault entry (60_exceptions.md R221, R228, R231, R232): which event raises which fault, what FINFO then holds, and that the
record is one its code allows. -/

namespace Sys2Proof.Machine

open Sys2Proof.Safety

/-- The event raises the fault `c` with the information `info` in an engine that is not faulted: a line for each cause of R221's
table, with R228's FINFO. `serve_cases_of_noFault` ties it to the model. -/
inductive Raises (s : State) : HostEvent → FCode → Word → Prop
  /-- R222. -/
  | illegalCmd {d : Word} {e : DecodeReject} (hd : decode d = .error e) : Raises s (.write 0x00 d) .illegalCmd d
  /-- R224. -/
  | lenRange {d : Word} {n : Nat} (hd : decode d = .ok (.kgen n)) (hn : s.cfg.ktCap < n) :
      Raises s (.write 0x00 d) .lenRange d
  /-- R223. -/
  | emptyKt {d : Word} {i : Instr} (hd : decode d = .ok i) (hkey : needsKey i = true) (hk : s.klen = 0) :
      Raises s (.write 0x00 d) .emptyKt d
  /-- R225, read. -/
  | badAddrRead {a : Addr} (hr : regAt s.cfg a = none) : Raises s (.read a) .badAddr (readInfo a)
  /-- R225, write. -/
  | badAddrWrite {a : Addr} {d : Word} (hr : regAt s.cfg a = none) : Raises s (.write a d) .badAddr (writeInfo a)
  /-- R226, read. -/
  | badAccessRead : Raises s (.read 0x00) .badAccess (readInfo 0x00)
  /-- R226, write. -/
  | badAccessWrite {a : Addr} {d : Word} {r : Reg} (hr : regAt s.cfg a = some r) (hne : r ≠ .cmd)
      (hw : regWrite r d s = none) : Raises s (.write a d) .badAccess (writeInfo a)

/-- What the host has read after an event that raises a fault: a read returns 0, a write nothing (R232). -/
def outboxAfterFault : HostEvent → List Word → List Word
  | .read _, os => os ++ [0]
  | _, os => os

/-- Fault entry: the event raises a fault, and t differs from s in the record and in what the host has read alone (R232). -/
def EntersFault (s : State) (e : HostEvent) (t : State) : Prop :=
  ∃ c info, Raises s e c info ∧ t = { s with fcode := c, finfo := info, outbox := outboxAfterFault e s.outbox }

/-- No fault is recorded, and FINFO is 0 if it was. -/
def StaysUnfaulted (s t : State) : Prop := t.fcode = .noFault ∧ (s.finfo = 0 → t.finfo = 0)

theorem regWrite_keeps_fault_and_klen {r : Reg} {d : Word} {s t : State} (hw : regWrite r d s = some t) :
    t.fcode = s.fcode ∧ t.finfo = s.finfo ∧ t.klen = s.klen := by
  rcases regWrite_cases hw with ⟨-, rfl⟩ | ⟨-, rfl⟩ | ⟨-, rfl⟩ | ⟨-, rfl⟩ | ⟨-, rfl⟩ <;> exact ⟨rfl, rfl, rfl⟩

section
variable {s t : State} (h0 : s.fcode = .noFault)
include h0

theorem exec_cases_of_noFault {d : Word} {i : Instr} (hd : decode d = .ok i) (h : exec i s = .next t) :
    EntersFault s (.write 0x00 d) t ∨ StaysUnfaulted s t := by
  rcases exec_cases h with ⟨rfl, -⟩ | ⟨-, rfl⟩ | ⟨-, n, -, -, rfl⟩ | ⟨-, -, -, v, rfl⟩ | ⟨-, ⟨n, rfl, hn⟩, rfl⟩ |
    ⟨-, hkey, hk, rfl⟩
  · exact .inr ⟨h0, id⟩
  · exact .inr ⟨rfl, fun _ => rfl⟩
  · exact .inr ⟨h0, id⟩
  · exact .inr ⟨h0, id⟩
  · rw [encode_of_decode hd]
    exact .inl ⟨_, _, .lenRange hd hn, rfl⟩
  · rw [encode_of_decode hd]
    exact .inl ⟨_, _, .emptyKt hd hkey hk, rfl⟩

/-- Everything a transaction can do to an engine that is not faulted, as far as faults go. -/
theorem serve_cases_of_noFault {e : HostEvent} (h : serve e s = .next t) : EntersFault s e t ∨ StaysUnfaulted s t := by
  cases e with
  | read a =>
    rcases hostRead_cases h with ⟨r, v, -, -, rfl⟩ | ⟨hr, rfl⟩ | ⟨rfl, rfl⟩
    · exact .inr ⟨h0, id⟩
    · rw [raiseFault_of_noFault h0]
      exact .inl ⟨_, _, .badAddrRead hr, rfl⟩
    · rw [raiseFault_of_noFault h0]
      exact .inl ⟨_, _, .badAccessRead, rfl⟩
  | write a d =>
    rcases hostWrite_cases h with ⟨hne, -⟩ |
      ⟨-, ⟨hr, rfl⟩ | ⟨r, hr, hne, hw, rfl⟩ | ⟨r, -, hw⟩ | ⟨rfl, i, hd, hi⟩ | ⟨rfl, ⟨e, hd⟩, rfl⟩⟩
    · exact absurd h0 hne
    · exact .inl ⟨_, _, .badAddrWrite hr, rfl⟩
    · exact .inl ⟨_, _, .badAccessWrite hr hne hw, rfl⟩
    · obtain ⟨hcode, hinfo, -⟩ := regWrite_keeps_fault_and_klen hw
      exact .inr ⟨hcode.trans h0, hinfo.trans⟩
    · exact exec_cases_of_noFault h0 hd hi
    · exact .inl ⟨_, _, .illegalCmd hd, rfl⟩
  | hardReset =>
    cases h
    exact .inr ⟨rfl, fun _ => rfl⟩

end

/-- Which registers take no written data depends neither on the data nor on the state. -/
theorem regWrite_eq_none_congr {r : Reg} {d d' : Word} {s s' : State} (h : regWrite r d s = none) :
    regWrite r d' s' = none := by
  cases r with
  | cmd | status | finfo | kt => rfl
  | p | q | s | psn | b => cases h

/-- R221's law speaks of the engine and its configuration alone. -/
theorem faultRecord_of_sameEngine {s t : State} (hsame : SameEngine s t) (h : FaultRecord s) : FaultRecord t := by
  obtain ⟨m, cfg, es, os⟩ := t
  obtain ⟨rfl, rfl⟩ := hsame
  simp only [FaultRecord] at h ⊢
  cases hc : s.fcode <;> simp only [hc] at h ⊢
  case badAccess => exact h.imp_right fun ⟨a, r, hr, hne, hw, hinfo⟩ => ⟨a, r, hr, hne, regWrite_eq_none_congr hw, hinfo⟩
  all_goals exact h

theorem faultRecord_of_raises {s : State} {e : HostEvent} {c : FCode} {info : Word} (h : Raises s e c info)
    (os : List Word) : FaultRecord { s with fcode := c, finfo := info, outbox := os } := by
  cases h with
  | illegalCmd hd =>
    intro r hr
    rw [← Bool.not_eq_true, OpcodeRow.selects_iff]
    intro hsel
    obtain ⟨i, hi⟩ := decode_of_row hr hsel
    cases hd.symm.trans hi
  | @lenRange d n hd hn =>
    have hwf := wf_of_decode hd
    exact ⟨n, hn, of_decide_eq_true hwf, (encode_of_decode hd).symm⟩
  | @emptyKt d i hd hkey hk => exact ⟨hk, i, wf_of_decode hd, hkey, (encode_of_decode hd).symm⟩
  | badAddrRead hr => exact ⟨_, hr, .inl rfl⟩
  | badAddrWrite hr => exact ⟨_, hr, .inr rfl⟩
  | badAccessRead => exact .inl rfl
  | badAccessWrite hr hne hw => exact .inr ⟨_, _, hr, hne, regWrite_eq_none_congr hw, rfl⟩

theorem faultRecord_of_noFault {s : State} (h0 : s.fcode = .noFault) : FaultRecord s ↔ s.finfo = 0 := by
  simp only [FaultRecord, h0]

/-- Settles O47: a faulted engine keeps its record or is reset; any other one enters a fault that its code allows, or stays
unfaulted with FINFO = 0. -/
theorem faultRecordKeptByEveryStep : Obligations.FaultRecordKeptByEveryStep := by
  intro s t h ht
  by_cases h0 : s.fcode = .noFault
  · rcases step_cases ht with ⟨-, rfl⟩ | ⟨e, es, -, hserve⟩
    · exact h
    · rcases serve_cases_of_noFault (s := setInbox es s) h0 hserve with ⟨c, info, hraise, rfl⟩ | ⟨ht0, hfinfo⟩
      · exact faultRecord_of_raises hraise _
      · exact (faultRecord_of_noFault ht0).2 (hfinfo ((faultRecord_of_noFault h0).1 h))
  · rcases step_cases_of_faulted h0 ht with hsame | ⟨e, es, -, -, rfl⟩
    · exact faultRecord_of_sameEngine hsame h
    · exact (faultRecord_of_noFault rfl).2 rfl

/-- Settles O44, from `serve_cases_of_noFault`: the codes by the cause, STATUS by its fields. -/
theorem faultEntryRecordsAndChangesNothingElse : Obligations.FaultEntryRecordsAndChangesNothingElse := by
  intro s t e es h0 hin ht hne
  rw [step_of_inbox hin] at ht
  obtain ⟨c, info, hraise, rfl⟩ := (serve_cases_of_noFault (s := setInbox es s) h0 ht).resolve_right fun hstay => hne hstay.1
  refine ⟨?_, (statusWord_fault _).trans (if_neg hne), statusWord_fcode _⟩
  cases hraise with
  | illegalCmd | lenRange | emptyKt => exact ⟨by simp [FCode.code], rfl⟩
  | badAddrRead | badAccessRead => exact ⟨by simp [FCode.code], rfl⟩
  | @badAddrWrite a d hr =>
    have ha : a ≠ 0x00 := mt (regAt_eq_cmd (cfg := s.cfg)).2 fun hcmd => by cases hr.symm.trans hcmd
    exact ⟨iff_of_false (by simp [FCode.code]) ha, by rw [if_neg ha]; rfl⟩
  | @badAccessWrite a d r hr hr' hw =>
    have ha : a ≠ 0x00 := mt (regAt_eq_cmd (cfg := s.cfg)).2 fun hcmd => hr' (Option.some.inj (hr.symm.trans hcmd))
    exact ⟨iff_of_false (by simp [FCode.code]) ha, by rw [if_neg ha]; rfl⟩

end Sys2Proof.Machine
end

section
/-! The faults of command words by their fields (60_exceptions.md R222 to R224), and the order in which the conditions are asked
(R231). -/

namespace Sys2Proof

open Sys2Proof.Safety

theorem decode_of_reset_opcode {d : Word} (hhigh : bitField d 63 16 = 0) (hop : bitField d 7 0 = 0x07) :
    decode d = decodeZ d .reset := by
  rw [decode, if_pos hhigh, hop]; rfl

/-- R222's condition: a reserved high bit, an unassigned opcode, or a reserved bit of format Z or X. -/
def IllegalWord (d : Word) : Prop :=
  bitField d 63 16 ≠ 0 ∨ bitField d 7 0 ∉ [0x00, 0x01, 0x02, 0x03, 0x04, 0x05, 0x07] ∨
    bitField d 7 0 ∈ [0x00, 0x02, 0x03, 0x07] ∧ bitField d 15 8 ≠ 0 ∨ bitField d 7 0 ∈ [0x04, 0x05] ∧ bitField d 15 12 ≠ 0

section
variable {d : Word} {i : Instr} (h : decode d = .ok i)
include h

theorem not_illegalWord_of_decode : ¬IllegalWord d := by
  cases i with
  | nop | kgen | enc | dec | reset =>
    obtain ⟨hhigh, hop, hbyte⟩ := decode_ok h
    simp [IllegalWord, hhigh, hop, hbyte]
  | xfwd | xinv =>
    obtain ⟨hhigh, hop, hres, -⟩ := decode_ok h
    simp [IllegalWord, hhigh, hop, hres]

/-- The commands of R223 by their opcodes. -/
theorem needsKey_iff_opcode : needsKey i = true ↔ bitField d 7 0 ∈ [0x02, 0x03, 0x04, 0x05] := by
  cases i <;> obtain ⟨-, hop, -⟩ := decode_ok h <;> simp [hop, needsKey]

theorem eq_kgen_iff_opcode : i = .kgen (bitField d 15 8) ↔ bitField d 7 0 = 0x01 := by
  cases i <;> obtain ⟨-, hop, hcount⟩ := decode_ok h <;> simp [hop, hcount]

end

theorem decode_of_not_illegalWord {d : Word} (h : ¬IllegalWord d) : ∃ i, decode d = .ok i := by
  simp only [IllegalWord, not_or, not_and, not_not] at h
  obtain ⟨hhigh, hop, hz, hx⟩ := h
  simp only [List.mem_cons, List.not_mem_nil, or_false] at hop
  rcases hop with hop | hop | hop | hop | hop | hop | hop
  · exact ⟨_, (decode_of_nop_opcode hhigh hop).trans (if_pos (hz (by simp [hop])))⟩
  · exact ⟨_, decode_of_kgen_opcode hhigh hop⟩
  · exact ⟨_, (decode_of_enc_opcode hhigh hop).trans (if_pos (hz (by simp [hop])))⟩
  · exact ⟨_, (decode_of_dec_opcode hhigh hop).trans (if_pos (hz (by simp [hop])))⟩
  · exact ⟨_, (decode_of_xfwd_opcode hhigh hop).trans (if_pos (hx (by simp [hop])))⟩
  · exact ⟨_, (decode_of_xinv_opcode hhigh hop).trans (if_pos (hx (by simp [hop])))⟩
  · exact ⟨_, (decode_of_reset_opcode hhigh hop).trans (if_pos (hz (by simp [hop])))⟩

theorem decode_of_illegalWord {d : Word} (h : IllegalWord d) : ∃ e, decode d = .error e := by
  cases hd : decode d with
  | ok i => exact absurd h (not_illegalWord_of_decode hd)
  | error e => exact ⟨e, rfl⟩

/-- R223's words: the rows of ENC, DEC, XFWD and XINV select commands that need a key. -/
theorem decode_of_cipherWord {d : Word}
    (hd : d = 0x02 ∨ d = 0x03 ∨ d &&& 0xFFFFFFFFFFFFF0FF = 0x04 ∨ d &&& 0xFFFFFFFFFFFFF0FF = 0x05) :
    ∃ i, decode d = .ok i ∧ needsKey i = true := by
  have hrow : ∃ r ∈ opcodeRows, d &&& r.mask = r.pattern ∧ bitField r.pattern 7 0 ∈ [0x02, 0x03, 0x04, 0x05] := by
    rcases hd with rfl | rfl | hsel | hsel
    · exact ⟨opcodeRows[2], by decide, by decide, by decide⟩
    · exact ⟨opcodeRows[3], by decide, by decide, by decide⟩
    · exact ⟨opcodeRows[4], by decide, hsel, by decide⟩
    · exact ⟨opcodeRows[5], by decide, hsel, by decide⟩
  obtain ⟨r, hr, hsel, hop⟩ := hrow
  obtain ⟨i, hi⟩ := decode_of_row hr hsel
  exact ⟨i, hi, (needsKey_iff_opcode hi).2 (opcode_of_row hr hsel ▸ hop)⟩

end Sys2Proof

namespace Sys2Proof.Machine

open Sys2Proof.Safety

/-- Settles O40: an illegal word is one that does not decode, and ILLEGAL_CMD has no other cause. -/
theorem illegalWordRaisesIllegalCmd : Obligations.IllegalWordRaisesIllegalCmd := by
  intro s d es h0 hin
  refine ⟨fun hbad => ?_, fun hgood => ?_⟩
  · obtain ⟨e, hd⟩ := decode_of_illegalWord hbad
    exact step_undecodable h0 hin hd
  · obtain ⟨i, hd⟩ := decode_of_not_illegalWord hgood
    obtain ⟨t, ht, -⟩ := step_answers s
    refine ⟨t, ht, ?_⟩
    rw [step_of_inbox hin] at ht
    rcases serve_cases_of_noFault (s := setInbox es s) h0 ht with ⟨c, info, hraise, rfl⟩ | ⟨ht0, -⟩
    · rintro rfl
      cases hraise with
      | illegalCmd he => cases hd.symm.trans he
    · simp [ht0]

/-- Settles O42: the row of KGEN gives the command, and `exec_kgen_of_gt` its fault. -/
theorem longKgenRaisesLenRange : Obligations.LongKgenRaisesLenRange := by
  intro s d es h0 hin hsel hn
  have hr : opcodeRows[1] ∈ opcodeRows := by decide
  obtain ⟨i, hd⟩ := decode_of_row hr hsel
  obtain rfl := (eq_kgen_iff_opcode hd).2 (opcode_of_row hr hsel)
  rw [step_command hin hd, exec_kgen_of_gt (s := setInbox es s) h0 hn, encode_of_decode hd]
  rfl

/-- R223: with a key, a command that needs one writes B and nothing else. -/
theorem exec_of_ready {i : Instr} {s : State} (hkey : needsKey i = true) (h : CipherReady s) :
    ∃ v, exec i s = .next (setB v s) := by
  obtain ⟨h0, hk⟩ := h
  cases i with
  | nop | kgen | reset => cases hkey
  | enc => exact ⟨_, exec_enc_of_encBlock h0 (encBlock_of_pos (Nat.ne_of_gt hk))⟩
  | dec => exact ⟨_, exec_dec_of_decBlock h0 (decBlock_of_pos (Nat.ne_of_gt hk))⟩
  | xfwd t j => exact ⟨_, exec_xfwd_of_ready t j ⟨h0, hk⟩⟩
  | xinv t j => exact ⟨_, exec_xinv_of_ready t j ⟨h0, hk⟩⟩

section
variable {s t : State} (hk : 1 ≤ s.klen) (hk' : t.klen = 0)
include hk hk'

/-- KLEN becomes 0 by RESET or by KGEN 0 alone. -/
theorem exec_empties_table {i : Instr} (h : exec i s = .next t) : i = .reset ∨ i = .kgen 0 := by
  have hsame : t.klen ≠ s.klen := by omega
  rcases exec_cases h with ⟨rfl, -⟩ | ⟨rfl, -⟩ | ⟨-, n, rfl, -, rfl⟩ | ⟨-, -, -, v, rfl⟩ | ⟨-, -, rfl⟩ | ⟨-, -, -, rfl⟩
  · exact absurd rfl hsame
  · exact .inl rfl
  · rw [setTable_klen, generate_length] at hk'
    exact .inr (hk' ▸ rfl)
  · exact absurd rfl hsame
  · exact absurd rfl hsame
  · exact absurd rfl hsame

theorem serve_empties_table {e : HostEvent} (h : serve e s = .next t) : resets e = true ∨ e = .write 0x00 0x01 := by
  have hsame : t.klen ≠ s.klen := by omega
  cases e with
  | hardReset => exact .inl rfl
  | read a =>
    rcases hostRead_cases h with ⟨r, v, -, -, rfl⟩ | ⟨-, rfl⟩ | ⟨-, rfl⟩
    · exact absurd rfl hsame
    · exact absurd (raiseFault_klen ..) hsame
    · exact absurd (raiseFault_klen ..) hsame
  | write a d =>
    rcases hostWrite_cases h with ⟨-, ⟨rfl, rfl, -⟩ | ⟨-, rfl⟩⟩ |
      ⟨-, ⟨-, rfl⟩ | ⟨r, -, -, -, rfl⟩ | ⟨r, -, hw⟩ | ⟨rfl, i, hd, hi⟩ | ⟨-, -, rfl⟩⟩
    · exact .inl rfl
    · exact absurd rfl hsame
    · exact absurd rfl hsame
    · exact absurd rfl hsame
    · obtain ⟨-, -, hklen⟩ := regWrite_keeps_fault_and_klen hw
      exact absurd hklen hsame
    · rcases exec_empties_table hk hk' hi with rfl | rfl
      · exact .inl (eq_seven_of_decode_reset hd ▸ rfl)
      · exact .inr (encode_of_decode hd ▸ rfl)
    · exact absurd rfl hsame

end

/-- Settles O41: the four commands by `exec_of_empty` and `exec_of_ready`; EMPTY_KT has no other cause; and what empties the
table. -/
theorem cipherCommandsNeedAKey : Obligations.CipherCommandsNeedAKey := by
  refine ⟨fun s d es h0 hin hcipher => ?_, fun s t ht h0 hcode => ?_, fun s t ht hk hk' => ?_⟩
  · obtain ⟨i, hd, hkey⟩ := decode_of_cipherWord hcipher
    rw [step_command hin hd]
    refine ⟨fun hk => ?_, fun hk => exec_of_ready (s := setInbox es s) hkey ⟨h0, hk⟩⟩
    rw [exec_of_empty (s := setInbox es s) h0 hkey hk, encode_of_decode hd]
    rfl
  · rcases step_cases ht with ⟨-, rfl⟩ | ⟨e, es, -, hserve⟩
    · cases h0.symm.trans hcode
    · rcases serve_cases_of_noFault (s := setInbox es s) h0 hserve with ⟨c, info, hraise, rfl⟩ | ⟨ht0, -⟩
      · obtain rfl : c = .emptyKt := hcode
        cases hraise with
        | emptyKt _ _ hk => exact hk
      · cases ht0.symm.trans hcode
  · rcases step_cases ht with ⟨-, rfl⟩ | ⟨e, es, hin, hserve⟩
    · omega
    · exact ⟨e, es, hin, serve_empties_table (s := setInbox es s) hk hk' hserve⟩

/-- Away from CMD and the five data addresses stands no register that takes written data. -/
theorem regWrite_eq_none_of_address {cfg : Config} {a : Addr} {r : Reg} (hr : regAt cfg a = some r)
    (ha : ¬(0x04 ≤ a.toNat ∧ a.toNat ≤ 0x08)) (d : Word) (s : State) : regWrite r d s = none := by
  rw [← regAddr_of_regAt hr] at ha
  cases r with
  | cmd | status | finfo | kt => rfl
  | p | q | s | psn | b => exact absurd (by decide) ha

section
variable {s : State} (h0 : s.fcode = .noFault)
include h0

/-- R231 (5) and (6), for a word that decodes: no command can meet both conditions. -/
theorem exec_fcode {d : Word} {i : Instr} {t : State} (hd : decode d = .ok i) (h : exec i s = .next t) :
    t.fcode =
      if bitField d 7 0 = 0x01 ∧ s.cfg.ktCap < bitField d 15 8 then .lenRange
      else if bitField d 7 0 ∈ [0x02, 0x03, 0x04, 0x05] ∧ s.klen = 0 then .emptyKt
      else .noFault := by
  simp only [← needsKey_iff_opcode hd, ← eq_kgen_iff_opcode hd]
  split_ifs with hlong hempty
  · obtain ⟨rfl, hn⟩ := hlong
    cases h.symm.trans (exec_kgen_of_gt h0 hn)
    rfl
  · cases h.symm.trans (exec_of_empty h0 hempty.1 hempty.2)
    rfl
  · rcases exec_cases_of_noFault h0 hd h with ⟨c, info, hraise, rfl⟩ | ⟨ht0, -⟩
    · cases hraise with
      | illegalCmd he => cases hd.symm.trans he
      | lenRange hd' hn =>
        cases hd.symm.trans hd'
        obtain ⟨-, -, hcount⟩ := decode_ok hd
        exact absurd ⟨congrArg _ hcount.symm, hcount ▸ hn⟩ hlong
      | emptyKt hd' hkey hk =>
        cases hd.symm.trans hd'
        exact absurd ⟨hkey, hk⟩ hempty
      | badAddrWrite hr => cases hr
      | badAccessWrite hr hne _ => exact absurd (Option.some.inj hr).symm hne
    · exact ht0

section
variable {t : State} {a : Addr} {d : Word} {es : List HostEvent} (ht : step s = .next t)
include ht

/-- R231 (4), and the conditions after it. -/
theorem step_fcode_of_command (hin : s.inbox = .write 0x00 d :: es) :
    t.fcode =
      if ∀ r ∈ opcodeRows, d &&& r.mask ≠ r.pattern then .illegalCmd
      else if bitField d 7 0 = 0x01 ∧ s.cfg.ktCap < bitField d 15 8 then .lenRange
      else if bitField d 7 0 ∈ [0x02, 0x03, 0x04, 0x05] ∧ s.klen = 0 then .emptyKt
      else .noFault := by
  cases hd : decode d with
  | ok i =>
    obtain ⟨r, hr, hsel, -⟩ := row_of_decode hd
    rw [if_neg fun hnone => hnone r hr hsel]
    exact exec_fcode (s := setInbox es s) h0 hd ((step_command hin hd).symm.trans ht)
  | error e =>
    have hnone : ∀ r ∈ opcodeRows, d &&& r.mask ≠ r.pattern := fun r hr hsel => by
      obtain ⟨i, hi⟩ := decode_of_row hr hsel
      cases hd.symm.trans hi
    cases ht.symm.trans (step_undecodable h0 hin hd)
    exact (if_pos hnone).symm

theorem step_fcode_of_unmapped (hr : regAt s.cfg a = none)
    (hin : s.inbox = .read a :: es ∨ ∃ d, s.inbox = .write a d :: es) : t.fcode = .badAddr := by
  rcases hin with hin | ⟨d, hin⟩
  · cases ht.symm.trans (step_read_unmapped h0 hin hr)
    rfl
  · cases ht.symm.trans (step_write_unmapped h0 hin hr)
    rfl

section
variable {r : Reg} (hr : regAt s.cfg a = some r) (hcmd : r ≠ .cmd)
include hr hcmd

theorem step_fcode_of_read_register (hin : s.inbox = .read a :: es) : t.fcode = .noFault := by
  obtain ⟨v, hv⟩ := Option.ne_none_iff_exists'.1 (mt (regValue_eq_none (s := s)).1 hcmd)
  cases ht.symm.trans (step_read_register hin hr hv)
  exact h0

theorem step_fcode_of_write_register (hin : s.inbox = .write a d :: es) :
    t.fcode = if ¬(0x04 ≤ a.toNat ∧ a.toNat ≤ 0x08) then .badAccess else .noFault := by
  split_ifs with hdata
  · obtain ⟨hlo, hhi⟩ := hdata
    obtain ⟨r', u, hr', hw⟩ := regWrite_at_data_address hlo hhi d (setInbox es s)
    cases ht.symm.trans (step_write_register h0 hin hr' hw)
    obtain ⟨hcode, -⟩ := regWrite_keeps_fault_and_klen hw
    exact hcode.trans h0
  · cases ht.symm.trans (step_write_readOnly h0 hin hr hcmd (regWrite_eq_none_of_address hr hdata d _))
    rfl

end

end

end

/-- Settles O43: a faulted engine by O46; any other one by the address, in R231's order: unmapped, CMD, or another register. -/
theorem firstConditionChoosesTheFault : Obligations.FirstConditionChoosesTheFault := by
  intro s t ht
  refine ⟨fun h => ?_, fun h0 a es => ?_⟩
  · obtain ⟨hkeeps, -⟩ := onlyResetLeavesTheFaultedState s t h ht
    exact (em (t.fcode = .noFault)).symm.imp_left fun hne => (hkeeps hne).1
  intro unmapped
  cases hr : regAt s.cfg a with
  | none =>
    have hunmapped : unmapped := unmapped_iff_regAt_eq_none.2 hr
    simp only [if_pos hunmapped]
    exact ⟨fun hin => step_fcode_of_unmapped h0 ht hr (.inl hin),
      fun d hin => step_fcode_of_unmapped h0 ht hr (.inr ⟨d, hin⟩)⟩
  | some r =>
    have hmapped : ¬unmapped := fun hunmapped => by cases hr.symm.trans (unmapped_iff_regAt_eq_none.1 hunmapped)
    simp only [if_neg hmapped]
    by_cases ha : a = 0x00
    · subst ha
      refine ⟨fun hin => ?_, fun d hin => ?_⟩
      · cases ht.symm.trans (step_read_cmd h0 hin)
        rfl
      · exact step_fcode_of_command h0 ht hin
    · have hcmd : r ≠ .cmd := fun hcmd => ha (regAt_eq_cmd.1 (hcmd ▸ hr))
      simp only [ne_eq, ha, not_false_eq_true, true_and, if_true, if_false]
      exact ⟨step_fcode_of_read_register h0 ht hr hcmd, fun d => step_fcode_of_write_register h0 ht hr hcmd⟩

end Sys2Proof.Machine
end

section
/-! A batch of events checked once at its end (70_reset_and_hazards.md R269). -/

namespace Sys2Proof.Machine

open Sys2Proof.Safety

/-- Without a reset among the events, an engine that ends without a fault had none when they began: faults are sticky. -/
theorem resultsTrusted_of_serveAll {es : List HostEvent} {s t : State} (hes : ∀ e ∈ es, resets e = false)
    (h : serveAll es s = .next t) (ht : ResultsTrusted t) : ResultsTrusted s := by
  by_contra hfaulted
  obtain ⟨t', ht', -, hsame⟩ := faultIsStickyUntilReset es s hfaulted hes
  cases h.symm.trans ht'
  exact hfaulted ((congrArg Engine.fcode hsame).symm.trans ht)

/-- Settles O49: the batch is its first k events and then the rest, and the rest began in the state that the first k left. -/
theorem oneCheckCoversTheBatch : Obligations.OneCheckCoversTheBatch := by
  intro es s t hes h ht k
  rw [← List.take_append_drop k es, serveAll_append, andThen_eq_next] at h
  obtain ⟨u, hfirst, hrest⟩ := h
  exact ⟨u, hfirst, resultsTrusted_of_serveAll (fun e he => hes e (List.mem_of_mem_drop he)) hrest ht⟩

end Sys2Proof.Machine
end

section
/-! The boot sequence (70_reset_and_hazards.md R264), step by step: what each event leaves, and what the two reads of STATUS
return. -/

namespace Sys2Proof.Machine

open Sys2Proof.Safety

/-- Step 2 of R264: the seeds are written, in the order P, Q, S that `bootEvents` takes. -/
def seedEvents (p q s : Nat) : List HostEvent :=
  [.write (regAddr .p) (BitVec.ofNat 64 p), .write (regAddr .q) (BitVec.ofNat 64 q),
    .write (regAddr .s) (BitVec.ofNat 64 s)]

/-- What step 2 of R264 leaves: the seed registers hold the seeds modulo 2^64 (R266). -/
def loadSeeds (p q s : Nat) (x : State) : State :=
  setS (BitVec.ofNat 64 s) (setQ (BitVec.ofNat 64 q) (setP (BitVec.ofNat 64 p) x))

/-- What steps 2 and 3 of R264 leave: the seeds are loaded and the table generated from them. -/
def keyed (p q s n : Nat) (x : State) : State :=
  setTable (generate (BitVec.ofNat 64 p) (BitVec.ofNat 64 q) (BitVec.ofNat 64 s) n) (loadSeeds p q s x)

/-- What step 1 or 4 of R264 leaves: the host is given STATUS. -/
def readStatus (x : State) : State := reply (statusWord x) x

theorem bootEvents_eq (p q s n psn : Nat) :
    bootEvents p q s n psn = .read (regAddr .status) :: (seedEvents p q s ++ [.write (regAddr .cmd) (encode (.kgen n)),
      .read (regAddr .status), .write (regAddr .psn) (BitVec.ofNat 64 psn)]) := rfl

theorem serve_read_status (x : State) : serve (.read (regAddr .status)) x = .next (readStatus x) := hostRead_status x

/-- A HostWrite of a command's word to CMD is the command. -/
theorem serve_write_encode {i : Instr} (hwf : i.wf = true) (x : State) :
    serve (.write (regAddr .cmd) (encode i)) x = exec i x :=
  hostWrite_command (decode_encode hwf) x

section
variable {x : State} (h0 : x.fcode = .noFault)
include h0

/-- A HostWrite of a data register writes it (R53). -/
theorem serve_write_register {r : Reg} {d : Word} {t : State} (hr : regAt x.cfg (regAddr r) = some r)
    (hw : regWrite r d x = some t) : serve (.write (regAddr r) d) x = .next t := by
  rw [serve, hostWrite_register h0 hr (ne_cmd_of_regWrite hw), hw, Option.getD_some]

theorem serveAll_seedEvents (p q s : Nat) : serveAll (seedEvents p q s) x = .next (loadSeeds p q s x) := by
  let x₁ := setP (BitVec.ofNat 64 p) x
  let x₂ := setQ (BitVec.ofNat 64 q) x₁
  rw [seedEvents, serveAll, serve_write_register (r := .p) (t := x₁) h0 rfl rfl, andThen_next,
    serveAll, serve_write_register (r := .q) (x := x₁) (t := x₂) h0 rfl rfl, andThen_next,
    serveAll_singleton, serve_write_register (r := .s) (x := x₂) h0 rfl rfl, loadSeeds]

/-- STATUS of an engine without a fault: FAULT and FCODE are 0 (R29). -/
theorem statusWord_of_noFault :
    statusWord x = BitVec.ofNat 64 (2 * krdyBit x + 256 * x.klen + 65536 * x.cfg.ktCap) := by
  simp [statusWord, faultBit, h0, FCode.code]

/-- Steps 1 to 5 of R264, from any state without a fault in which KGEN n is in range. -/
theorem serveAll_bootEvents (p q s psn : Nat) {n : Nat} (hn : n ≤ x.cfg.ktCap) (hword : n ≤ 255) :
    serveAll (bootEvents p q s n psn) x =
      .next (setPsn (BitVec.ofNat 64 psn) (readStatus (keyed p q s n (readStatus x)))) := by
  let y := keyed p q s n (readStatus x)
  have hseeds : serveAll (seedEvents p q s) (readStatus x) = .next (loadSeeds p q s (readStatus x)) :=
    serveAll_seedEvents (x := readStatus x) h0 p q s
  have hkgen : exec (.kgen n) (loadSeeds p q s (readStatus x)) = .next y := exec_kgen_of_le h0 hn
  rw [bootEvents_eq, serveAll, serve_read_status, andThen_next, serveAll_append, hseeds, andThen_next,
    serveAll, serve_write_encode (i := .kgen n) (decide_eq_true hword), hkgen, andThen_next,
    serveAll, serve_read_status, andThen_next,
    serveAll_singleton, serve_write_register (r := .psn) (x := readStatus y) h0 rfl rfl]

end

section
variable (p q s n : Nat) (x : State)

theorem keyed_klen : (keyed p q s n x).klen = n := generate_length ..

/-- The valid part of the table is the source's, for the seeds as they are (R113, R266). -/
theorem keyed_kt_take : ((keyed p q s n x).kt.take n).map BitVec.toNat = generateNat p q s n := by
  rw [keyed, setTable_kt, List.take_left' (generate_length ..), generateNat_eq_generate]

end

/-- After KGEN of n >= 1 keys STATUS reads KRDY = 1 and KLEN = n. -/
theorem statusWord_keyed {p q s n : Nat} {x : State} (h0 : x.fcode = .noFault) (hpos : 1 ≤ n) :
    statusWord (keyed p q s n x) = BitVec.ofNat 64 (2 + 256 * n + 65536 * x.cfg.ktCap) := by
  rw [statusWord_of_noFault (x := keyed p q s n x) h0, krdyBit_eq, keyed_klen, if_pos hpos]
  rfl

/-- Settles O50: the state of `serveAll_bootEvents`, by the table and the STATUS that `keyed` leaves. -/
theorem bootLeavesAReadyEngine : Obligations.BootLeavesAReadyEngine := by
  rintro cfg p q s n psn ⟨-, hcap⟩ hpos hn
  have hklen : (keyed p q s n (readStatus (State.resetOf cfg))).klen = n := keyed_klen ..
  have hread₁ : statusWord (State.resetOf cfg) = BitVec.ofNat 64 (65536 * cfg.ktCap) :=
    statusWord_resetEngine (State.resetOf cfg)
  have hread₂ : statusWord (keyed p q s n (readStatus (State.resetOf cfg))) =
      BitVec.ofNat 64 (2 + 256 * n + 65536 * cfg.ktCap) := statusWord_keyed rfl hpos
  refine ⟨_, serveAll_bootEvents (x := State.resetOf cfg) rfl p q s psn hn (by omega), ⟨rfl, ?_⟩, hklen, rfl, ?_,
    keyed_kt_take ..⟩
  · exact hpos.trans_eq hklen.symm
  · rw [← hread₁, ← hread₂]
    rfl

end Sys2Proof.Machine
end
